-- ==== Sys2Proof/Word.lean ====
section
/-! DEFINITION. The word types of the β (00_scope.md R3, R4, R5): a byte is 8 bits, a word, an address and a register
are 32 bits, a literal is 16 bits, a register number is 0 to 31. -/

namespace Sys2Proof

/-- A 32-bit word: a register's value, an address, `pc`, an instruction word (R4, R20, R25, R60). -/
abbrev Word := BitVec 32

/-- One byte of memory (R4; that it has 8 bits is D1). -/
abbrev Byte := BitVec 8

/-- The 16-bit two's-complement literal field of an instruction (R62, R64). -/
abbrev Lit := BitVec 16

/-- The number, 0 to 31, of a general register (R20, R63). -/
abbrev Reg := Fin 32

end Sys2Proof
end

