-- ==== Sys2Proof/Config.lean ====
section
/-! DEFINITION. The parameters of 00_scope.md R2 as plain data (held in State's field `cfg`, read by the rules and
written by no step: log entry 6), and the free functions that stand for what the spec leaves to the platform. -/

namespace Sys2Proof

/-- The two modes of the machine (10_state.md R28). -/
inductive Mode
  | user
  | supervisor
deriving DecidableEq, Repr, Inhabited

/-- `BYTE_ORDER` (20_memory.md R40, D2). -/
inductive ByteOrder
  /-- The byte at the word's address is bits 7:0. -/
  | little
  /-- The byte at the word's address is bits 31:24. -/
  | big
deriving DecidableEq, Repr

/-- The two values of `MISALIGNED_DATA` (20_memory.md R42) and of `MISALIGNED_PC` (R43). -/
inductive Misaligned
  /-- The spec gives the misaligned access or jump no meaning. -/
  | refuse
  /-- The two low bits are ignored. -/
  | maskLow2
deriving DecidableEq, Repr

/-- `JMP_MODE` (60_exceptions.md R236, D15). -/
inductive JmpMode
  /-- The spec's default: supervisor code stays supervisor exactly when bit 31 of the target is set. -/
  | bit31
  /-- The identity, which R236 and D15 allow a model that needs no change of mode. -/
  | keep
  /-- Any other function, the platform's own: the free function `Config.jmpModePlatform`. -/
  | platform
deriving DecidableEq, Repr

/-- `PRIV_EXEC` (43_privileged.md R160, D16): what opcode 0x00 does in supervisor mode. -/
inductive PrivExec
  /-- The machine has privileged instructions and the spec does not say what they do. -/
  | refuse
  /-- The machine has none, which "may be available" allows: `raise IllegalInstruction`. -/
  | illegalInstruction
  /-- The machine has privileged instructions: the platform's own step function, the free function
  `Config.privExecPlatform`. -/
  | platform
deriving DecidableEq, Repr

/-- `DIV_CORNER` (40_operate.md R106, 41_operate_const.md R125, D12): a zero divisor, and -2^31 / -1. -/
inductive DivCorner
  /-- The spec's default: the division has no meaning. -/
  | refuse
  /-- A total function on these operands: the free function `Config.divCornerValue`. -/
  | total
deriving DecidableEq, Repr

/-- `OPTIONAL_PRESENT` (43_privileged.md R163, D9): which starred opcodes the implementation has. -/
structure OptionalOpcodes where
  mul : Bool
  div : Bool
  mulc : Bool
  divc : Bool
deriving DecidableEq, Repr

/-- A range of addresses that hold memory: `base` up to, not including, `base + size`. -/
structure Region where
  base : Nat
  size : Nat
deriving DecidableEq, Repr

/-- The parameters of a β (00_scope.md R2). `XLEN` and `NREGS` are fixed and stand in the types; `END_OF_RUN`
is the host's and stands in Safety.lean. -/
structure Config where
  /-- `OPTIONAL_PRESENT` (R163). -/
  optional : OptionalOpcodes
  /-- `BYTE_ORDER` (R40). -/
  byteOrder : ByteOrder
  /-- `MISALIGNED_DATA` (R42). -/
  misalignedData : Misaligned
  /-- `MISALIGNED_PC` (R43). -/
  misalignedPc : Misaligned
  /-- `DIV_CORNER` (R106, R125). -/
  divCorner : DivCorner
  /-- `JMP_MODE` (R236). -/
  jmpMode : JmpMode
  /-- `PRIV_EXEC` (R160). -/
  privExec : PrivExec
  /-- `VEC_RESET` (R35, R228). -/
  vecReset : Word
  /-- `VEC_ILLOP` (R228). -/
  vecIllop : Word
  /-- `VEC_IRQ` (R228). -/
  vecIrq : Word
  /-- `IRQ_IN_SUPERVISOR` (R231). -/
  irqInSupervisor : Bool
  /-- `MEM_VALID` (R47): an aligned word address is valid where one region holds all four bytes. -/
  regions : List Region
deriving DecidableEq, Repr

/-- The total function that `DIV_CORNER` may be (40_operate.md R106, 41_operate_const.md R125), of dividend and divisor:
read only where `divCorner` is `total`, on a zero divisor and on -2^31 / -1, for which the spec states no quotient.
DESIGN CHOICE, log entry 9: nothing constrains the value. -/
opaque Config.divCornerValue : Word → Word → Word

/-- The platform's own `JMP_MODE` (60_exceptions.md R236) as a free function of mode and target: read only where
`jmpMode` is `platform`. DESIGN CHOICE, log entry 10: nothing constrains the value. -/
opaque Config.jmpModePlatform : Mode → Word → Mode

/-- What a privileged instruction of the platform's own leaves: every part of the architectural state it may write
(10_state.md). `pc` is given as the number of a word, because it is a multiple of 4 at every instruction boundary (R27). -/
structure PrivEffect where
  regs : Vector Word 31
  pcWord : BitVec 30
  mode : Mode
  /-- The bytes of memory it writes, in order. -/
  stores : List (Word × Byte)
deriving DecidableEq, Repr, Inhabited

/-- The step function that `PRIV_EXEC` may be (43_privileged.md R160), of the 26 unfixed bits, the registers, `pc` and
memory as (address, byte) pairs, in supervisor mode: read only where `privExec` is `platform`. DESIGN CHOICE, log entry
11: nothing constrains the value. -/
opaque Config.privExecPlatform : BitVec 26 → Vector Word 31 → Word → List (Nat × Byte) → PrivEffect

/-- The input irq under no law (70_reset_and_hazards.md R272) as a free function of the number of the step: read only
where the input is `free`. DESIGN CHOICE, log entry 5: nothing constrains the value. -/
opaque Config.irqFree : Nat → Bool

/-- The parameters at reset. The spec's defaults for the optional opcodes, byte order, `JMP_MODE` and
`IRQ_IN_SUPERVISOR`; PRESUMED vectors (log entry 2); DESIGN CHOICE for the misaligned accesses (log entries 7 and 8),
`DIV_CORNER` (log entry 9), `PRIV_EXEC` (log entry 11) and `MEM_VALID` (log entry 12). -/
def Config.atReset : Config where
  optional := ⟨true, true, true, true⟩
  byteOrder := .little
  misalignedData := .maskLow2
  misalignedPc := .maskLow2
  divCorner := .total
  jmpMode := .bit31
  privExec := .illegalInstruction
  vecReset := 0x80000000
  vecIllop := 0x80000004
  vecIrq := 0x80000008
  irqInSupervisor := false
  regions := [⟨0, 2 ^ 32⟩]

end Sys2Proof
end

