-- ==== Sys2Proof/Syntax.lean ====
section
/-! DEFINITION. The instructions of the β: one constructor per row of spec/opcode_table.json. The operands stand in the
order of the assembler form (30_encoding.md R74): sources first and the destination `rc` last, except in ST. The field
types are exactly the ranges of the encoding's fields (R63), so every term of `Instr` has a word (R82). -/

namespace Sys2Proof

/-- The symbols of the registers R30, R29, R28 and R27 (10_state.md R23, 30_encoding.md R76). -/
abbrev xp : Reg := 30
@[inherit_doc xp] abbrev sp : Reg := 29
@[inherit_doc xp] abbrev lp : Reg := 28
@[inherit_doc xp] abbrev bp : Reg := 27

/-- The instructions (30_encoding.md R67), named by their mnemonics. BF and BT are BEQ and BNE (R77). CMPLE and CMPLEC
are the instructions the source misprints as a second CMPLT and CMPLTC (90_conflicts.md C1). -/
inductive Instr
  /-- PRIV, the privileged opcode space 0x00, with its 26 unfixed bits (43_privileged.md R160). -/
  | priv (rest : BitVec 26)
  /-- LD(Ra,literal,Rc) (42_other.md R140). -/
  | ld (ra : Reg) (lit : Lit) (rc : Reg)
  /-- ST(Rc,literal,Ra): the register stored comes first, the base last (R141, R75). -/
  | st (rc : Reg) (lit : Lit) (ra : Reg)
  /-- JMP(Ra,Rc) (R142). -/
  | jmp (ra : Reg) (rc : Reg)
  /-- BEQ(Ra,label,Rc), also BF, with the literal that stands for the label (R143). -/
  | beq (ra : Reg) (lit : Lit) (rc : Reg)
  /-- BNE(Ra,label,Rc), also BT (R144). -/
  | bne (ra : Reg) (lit : Lit) (rc : Reg)
  /-- LDR(label,Rc) (R145). -/
  | ldr (lit : Lit) (rc : Reg)
  /-- ADD(Ra,Rb,Rc) (40_operate.md R103). -/
  | add (ra rb rc : Reg)
  /-- SUB(Ra,Rb,Rc) (R104). -/
  | sub (ra rb rc : Reg)
  /-- MUL(Ra,Rb,Rc), optional (R105). -/
  | mul (ra rb rc : Reg)
  /-- DIV(Ra,Rb,Rc), optional (R106). -/
  | div (ra rb rc : Reg)
  /-- CMPEQ(Ra,Rb,Rc) (R110). -/
  | cmpeq (ra rb rc : Reg)
  /-- CMPLT(Ra,Rb,Rc) (R111). -/
  | cmplt (ra rb rc : Reg)
  /-- CMPLE(Ra,Rb,Rc) (R112). -/
  | cmple (ra rb rc : Reg)
  /-- AND(Ra,Rb,Rc) (R107). -/
  | and (ra rb rc : Reg)
  /-- OR(Ra,Rb,Rc) (R108). -/
  | or (ra rb rc : Reg)
  /-- XOR(Ra,Rb,Rc) (R109). -/
  | xor (ra rb rc : Reg)
  /-- SHL(Ra,Rb,Rc) (R113). -/
  | shl (ra rb rc : Reg)
  /-- SHR(Ra,Rb,Rc) (R114). -/
  | shr (ra rb rc : Reg)
  /-- SRA(Ra,Rb,Rc) (R115). -/
  | sra (ra rb rc : Reg)
  /-- ADDC(Ra,literal,Rc) (41_operate_const.md R122). -/
  | addc (ra : Reg) (lit : Lit) (rc : Reg)
  /-- SUBC(Ra,literal,Rc) (R123). -/
  | subc (ra : Reg) (lit : Lit) (rc : Reg)
  /-- MULC(Ra,literal,Rc), optional (R124). -/
  | mulc (ra : Reg) (lit : Lit) (rc : Reg)
  /-- DIVC(Ra,literal,Rc), optional (R125). -/
  | divc (ra : Reg) (lit : Lit) (rc : Reg)
  /-- CMPEQC(Ra,literal,Rc) (R129). -/
  | cmpeqc (ra : Reg) (lit : Lit) (rc : Reg)
  /-- CMPLTC(Ra,literal,Rc) (R130). -/
  | cmpltc (ra : Reg) (lit : Lit) (rc : Reg)
  /-- CMPLEC(Ra,literal,Rc) (R131). -/
  | cmplec (ra : Reg) (lit : Lit) (rc : Reg)
  /-- ANDC(Ra,literal,Rc) (R126). -/
  | andc (ra : Reg) (lit : Lit) (rc : Reg)
  /-- ORC(Ra,literal,Rc) (R127). -/
  | orc (ra : Reg) (lit : Lit) (rc : Reg)
  /-- XORC(Ra,literal,Rc) (R128). -/
  | xorc (ra : Reg) (lit : Lit) (rc : Reg)
  /-- SHLC(Ra,literal,Rc) (R132). -/
  | shlc (ra : Reg) (lit : Lit) (rc : Reg)
  /-- SHRC(Ra,literal,Rc) (R133). -/
  | shrc (ra : Reg) (lit : Lit) (rc : Reg)
  /-- SRAC(Ra,literal,Rc) (R134). -/
  | srac (ra : Reg) (lit : Lit) (rc : Reg)
deriving DecidableEq, Repr

end Sys2Proof
end

