-- ==== Sys2Proof/Decode.lean ====
section
/-! DEFINITION. The decoder, total on every word and on every list of bytes and rejecting by name, then the encoder,
both from the format tables and the opcode map of 30_encoding.md. Instruction bits are numbered as the spec numbers
them, bit 31 the most significant (00_scope.md R3). -/

namespace Sys2Proof

/-! ### Fields (R61, R62, R63, R64) -/

/-- `opcode = iw[31:26]` (R63). -/
def opcodeField (iw : Word) : BitVec 6 := iw.extractLsb' 26 6

/-- `Rc = iw[25:21]` (R63). -/
def rcField (iw : Word) : Reg := (iw.extractLsb' 21 5).toFin

/-- `Ra = iw[20:16]` (R63). -/
def raField (iw : Word) : Reg := (iw.extractLsb' 16 5).toFin

/-- `Rb = iw[15:11]`, of the register format (R63). -/
def rbField (iw : Word) : Reg := (iw.extractLsb' 11 5).toFin

/-- `literal = iw[15:0]`, of the literal format and of the `01xxxx` format (R63). -/
def litField (iw : Word) : Lit := iw.extractLsb' 0 16

/-- The 26 bits of a word with opcode 0x00 that the spec gives no form (43_privileged.md R160). -/
def restField (iw : Word) : BitVec 26 := iw.extractLsb' 0 26

/-! ### Decoding -/

/-- Why the decoder gives no instruction. -/
inductive Reject
  /-- One of the 31 unassigned opcodes (R72). The step takes IllegalInstruction for it (43_privileged.md R161). -/
  | unassignedOpcode (opcode : BitVec 6)
  /-- Fewer than the four bytes of an instruction (R60). Only `decodeBytes` answers so; a fetch never does. -/
  | tooFewBytes
deriving DecidableEq, Repr

/-- The instruction a word stands for, by its bits 31:26 alone (R66, R67). Bits without a use are not looked at (R71):
10:0 of the register format, 15:0 of JMP, 20:16 of LDR. -/
def decode (iw : Word) : Except Reject Instr :=
  match opcodeField iw with
  | 0x00#6 => .ok (.priv (restField iw))
  | 0x18#6 => .ok (.ld (raField iw) (litField iw) (rcField iw))
  | 0x19#6 => .ok (.st (rcField iw) (litField iw) (raField iw))
  | 0x1B#6 => .ok (.jmp (raField iw) (rcField iw))
  | 0x1D#6 => .ok (.beq (raField iw) (litField iw) (rcField iw))
  | 0x1E#6 => .ok (.bne (raField iw) (litField iw) (rcField iw))
  | 0x1F#6 => .ok (.ldr (litField iw) (rcField iw))
  | 0x20#6 => .ok (.add (raField iw) (rbField iw) (rcField iw))
  | 0x21#6 => .ok (.sub (raField iw) (rbField iw) (rcField iw))
  | 0x22#6 => .ok (.mul (raField iw) (rbField iw) (rcField iw))
  | 0x23#6 => .ok (.div (raField iw) (rbField iw) (rcField iw))
  | 0x24#6 => .ok (.cmpeq (raField iw) (rbField iw) (rcField iw))
  | 0x25#6 => .ok (.cmplt (raField iw) (rbField iw) (rcField iw))
  | 0x26#6 => .ok (.cmple (raField iw) (rbField iw) (rcField iw))
  | 0x28#6 => .ok (.and (raField iw) (rbField iw) (rcField iw))
  | 0x29#6 => .ok (.or (raField iw) (rbField iw) (rcField iw))
  | 0x2A#6 => .ok (.xor (raField iw) (rbField iw) (rcField iw))
  | 0x2C#6 => .ok (.shl (raField iw) (rbField iw) (rcField iw))
  | 0x2D#6 => .ok (.shr (raField iw) (rbField iw) (rcField iw))
  | 0x2E#6 => .ok (.sra (raField iw) (rbField iw) (rcField iw))
  | 0x30#6 => .ok (.addc (raField iw) (litField iw) (rcField iw))
  | 0x31#6 => .ok (.subc (raField iw) (litField iw) (rcField iw))
  | 0x32#6 => .ok (.mulc (raField iw) (litField iw) (rcField iw))
  | 0x33#6 => .ok (.divc (raField iw) (litField iw) (rcField iw))
  | 0x34#6 => .ok (.cmpeqc (raField iw) (litField iw) (rcField iw))
  | 0x35#6 => .ok (.cmpltc (raField iw) (litField iw) (rcField iw))
  | 0x36#6 => .ok (.cmplec (raField iw) (litField iw) (rcField iw))
  | 0x38#6 => .ok (.andc (raField iw) (litField iw) (rcField iw))
  | 0x39#6 => .ok (.orc (raField iw) (litField iw) (rcField iw))
  | 0x3A#6 => .ok (.xorc (raField iw) (litField iw) (rcField iw))
  | 0x3C#6 => .ok (.shlc (raField iw) (litField iw) (rcField iw))
  | 0x3D#6 => .ok (.shrc (raField iw) (litField iw) (rcField iw))
  | 0x3E#6 => .ok (.srac (raField iw) (litField iw) (rcField iw))
  | op => .error (.unassignedOpcode op)

/-- The word whose bytes, from the lowest address up, are `b0`, `b1`, `b2`, `b3` (20_memory.md R40). -/
def wordOfBytes (order : ByteOrder) (b0 b1 b2 b3 : Byte) : Word :=
  match order with
  | .little => b3 ++ b2 ++ b1 ++ b0
  | .big => b0 ++ b1 ++ b2 ++ b3

/-- Byte `k`, 0 to 3 from the lowest address up, of a word (20_memory.md R40). -/
def byteOfWord (order : ByteOrder) (w : Word) (k : Nat) : Byte :=
  match order with
  | .little => w.extractLsb' (8 * k) 8
  | .big => w.extractLsb' (8 * (3 - k)) 8

/-- The instruction at the head of a list of bytes, and the bytes after it (R60). -/
def decodeBytes (order : ByteOrder) : List Byte → Except Reject (Instr × List Byte)
  | b0 :: b1 :: b2 :: b3 :: rest =>
    match decode (wordOfBytes order b0 b1 b2 b3) with
    | .ok i => .ok (i, rest)
    | .error r => .error r
  | _ => .error .tooFewBytes

/-- The instruction the decoder reads from an instruction whose bits are `w`, bit 0 the least significant, of which the
opcode table gives `nbits` and the rest are 0: its bytes as the hardware stores them, given to `decodeBytes`. -/
def decodeTableWord (nbits w : Nat) : Option Instr :=
  let iw : Word := BitVec.ofNat 32 (w % 2 ^ nbits)
  match decodeBytes .little ((List.range 4).map (byteOfWord .little iw)) with
  | .ok (i, _) => some i
  | .error _ => none

/-! ### Encoding (R82) -/

/-- A register number as its 5-bit field. -/
def regBits (r : Reg) : BitVec 5 := BitVec.ofFin r

/-- `enc_op` of R82: the register format of R61 with the unused bits 10:0 zero. -/
def encOp (opc : BitVec 6) (ra rb rc : Reg) : Word :=
  opc ++ regBits rc ++ regBits ra ++ regBits rb ++ 0#11

/-- `enc_lit` of R82: the literal format of R62 and the `01xxxx` format of R64. -/
def encLit (opc : BitVec 6) (ra : Reg) (lit : Lit) (rc : Reg) : Word :=
  opc ++ regBits rc ++ regBits ra ++ lit

/-- The opcode of an instruction (R67). -/
def Instr.opcode : Instr → BitVec 6
  | .priv .. => 0x00#6
  | .ld .. => 0x18#6
  | .st .. => 0x19#6
  | .jmp .. => 0x1B#6
  | .beq .. => 0x1D#6
  | .bne .. => 0x1E#6
  | .ldr .. => 0x1F#6
  | .add .. => 0x20#6
  | .sub .. => 0x21#6
  | .mul .. => 0x22#6
  | .div .. => 0x23#6
  | .cmpeq .. => 0x24#6
  | .cmplt .. => 0x25#6
  | .cmple .. => 0x26#6
  | .and .. => 0x28#6
  | .or .. => 0x29#6
  | .xor .. => 0x2A#6
  | .shl .. => 0x2C#6
  | .shr .. => 0x2D#6
  | .sra .. => 0x2E#6
  | .addc .. => 0x30#6
  | .subc .. => 0x31#6
  | .mulc .. => 0x32#6
  | .divc .. => 0x33#6
  | .cmpeqc .. => 0x34#6
  | .cmpltc .. => 0x35#6
  | .cmplec .. => 0x36#6
  | .andc .. => 0x38#6
  | .orc .. => 0x39#6
  | .xorc .. => 0x3A#6
  | .shlc .. => 0x3C#6
  | .shrc .. => 0x3D#6
  | .srac .. => 0x3E#6

/-- The word the assembler emits (R82): unused bits 0, and 31 in LDR's unused Ra (PRESUMED by the spec itself, D7). -/
def encode (i : Instr) : Word :=
  match i with
  | .priv rest => i.opcode ++ rest
  | .jmp ra rc => encLit i.opcode ra 0#16 rc
  | .ldr lit rc => encLit i.opcode 31 lit rc
  | .ld ra lit rc | .st rc lit ra | .beq ra lit rc | .bne ra lit rc => encLit i.opcode ra lit rc
  | .add ra rb rc | .sub ra rb rc | .mul ra rb rc | .div ra rb rc => encOp i.opcode ra rb rc
  | .cmpeq ra rb rc | .cmplt ra rb rc | .cmple ra rb rc => encOp i.opcode ra rb rc
  | .and ra rb rc | .or ra rb rc | .xor ra rb rc => encOp i.opcode ra rb rc
  | .shl ra rb rc | .shr ra rb rc | .sra ra rb rc => encOp i.opcode ra rb rc
  | .addc ra lit rc | .subc ra lit rc | .mulc ra lit rc | .divc ra lit rc => encLit i.opcode ra lit rc
  | .cmpeqc ra lit rc | .cmpltc ra lit rc | .cmplec ra lit rc => encLit i.opcode ra lit rc
  | .andc ra lit rc | .orc ra lit rc | .xorc ra lit rc => encLit i.opcode ra lit rc
  | .shlc ra lit rc | .shrc ra lit rc | .srac ra lit rc => encLit i.opcode ra lit rc

/-- A word as the assembler writes it (R71, R82): its opcode is assigned and the bits it does not use hold the
assembler's fill, 0 in bits 10:0 of the register format and in JMP's literal, 31 in LDR's Ra. -/
def canonicalWord (iw : Word) : Bool :=
  match decode iw with
  | .error _ => false
  | .ok (.jmp ..) => litField iw == 0#16
  | .ok (.ldr ..) => raField iw == 31
  | .ok _ => iw.extractLsb' 30 2 != 0b10#2 || iw.extractLsb' 0 11 == 0#11

end Sys2Proof
end

