-- ==== Sys2Proof/Machine/State.lean ====
section
/-! DEFINITION. The machine's state as plain data (10_state.md), its reset value (R34 to R37), and the reasons a step
can stop. -/

namespace Sys2Proof.Machine

/-- Memory as the listed bytes of the one address space (R32), addresses strictly rising, no entry equal to what an
unlisted address reads as (`Memory.wf`, Ops.lean). -/
abbrev Memory := List Host.Cell

/-- What the input irq (10_state.md R33) does once its listed samples are used up. -/
inductive IrqAfter
  /-- It repeats a pattern for ever; the empty pattern is an input that stays low. -/
  | repeating (pattern : List Bool)
  /-- It is under no law (70_reset_and_hazards.md R272): the free function `Config.irqFree` from this step number on. -/
  | free (tick : Nat)
deriving DecidableEq, Repr

/-- The input irq at the coming steps, as plain data: some samples, the head at the coming step, and what follows. -/
structure IrqInput where
  samples : List Bool
  after : IrqAfter
deriving DecidableEq, Repr

/-- The whole state (10_state.md). R31 is no state (R22). -/
structure State where
  /-- R0 to R30 (R20, R22). -/
  regs : Vector Word 31
  /-- The address of the instruction being executed (R25). -/
  pc : Word
  /-- User or supervisor (R28). -/
  mode : Mode
  /-- The one address space (R32). -/
  mem : Memory
  /-- MODEL's own: the input irq (R33, R272) at the coming steps (log entry 5). -/
  irq : IrqInput
  /-- MODEL's own: the parameters of R2, which no step writes (log entry 6). -/
  cfg : Config
deriving DecidableEq, Repr

/-- Why the machine stops with a fault. -/
inductive Fault
  /-- The spec's `refuse(no memory at address)` (20_memory.md R44, R47): a fetch, LD, LDR or ST at an address where
  MEM_VALID is false; raised by the word access of Ops.lean. Safe: nothing can be proved through it. -/
  | noMemory (address : Word)
deriving DecidableEq, Repr

/-- Why an instruction has no meaning in a state. -/
inductive Refusal
  /-- The instruction has no meaning in the model yet; raised by exec's refused arms alone (there are none). Safe. -/
  | notModelled (mnemonic : String)
  /-- The spec's `refuse(misaligned data address)` (20_memory.md R42): an access at an address that is no multiple of 4
  where MISALIGNED_DATA is refuse; raised by the word access of Ops.lean. Safe. -/
  | misalignedData (address : Word)
  /-- The spec's `refuse(misaligned jump target)` (20_memory.md R43): a JMP to a target that is no multiple of 4 where
  MISALIGNED_PC is refuse; raised by JMP. Safe. -/
  | misalignedJump (target : Word)
  /-- The spec's `refuse(privileged instruction not modelled)` (43_privileged.md R160): opcode 0x00 in supervisor mode
  where PRIV_EXEC is refuse, "their form and semantics are implementation-defined"; raised by PRIV. Safe. -/
  | privilegedInstruction (rest : BitVec 26)
  /-- The spec's `refuse(division by zero)` (40_operate.md R106): DIV or DIVC with divisor 0 where DIV_CORNER is refuse;
  raised by the division of Alu.lean. Safe. -/
  | divisionByZero
  /-- The spec's `refuse(quotient overflow)` (40_operate.md R106): DIV or DIVC of -2^31 by -1 where DIV_CORNER is refuse;
  raised by the division of Alu.lean. Safe. -/
  | quotientOverflow
deriving DecidableEq, Repr

/-- The machine right after reset for given parameters (R35 to R37, R260): pc at VEC_RESET, supervisor mode, no memory
listed (the image comes from outside, log entry 4). DESIGN CHOICE: R0 to R30, which the spec leaves unspecified (R34),
hold 0 (log entry 1), and the input irq stays low (log entry 5). -/
def State.resetWith (c : Config) : State where
  regs := Vector.replicate 31 0
  pc := c.vecReset
  mode := .supervisor
  mem := []
  irq := ⟨[], .repeating []⟩
  cfg := c

/-- The machine right after reset with the parameters of `Config.atReset`. -/
def State.reset : State := State.resetWith Config.atReset

end Sys2Proof.Machine
end

