-- ==== Sys2Proof/WellFormed.lean ====
section
/-! DEFINITION. The checks on what the types of Syntax.lean and Config.lean do not rule out by themselves: whether an
implementation has the instruction (43_privileged.md R163), whether the vectors are addresses of instructions
(60_exceptions.md R228), and whether an operand an assembly programmer writes fits its field (30_encoding.md R78, R79,
44_macros_and_conventions.md R178, R184). The fields of `Instr` are exactly as wide as the encoding's, so no check of a
register number or of a literal is left to make there. -/

namespace Sys2Proof

/-- An instruction is well formed for an implementation when the implementation has its opcode: the four starred ones
are in `OPTIONAL_PRESENT` or not, every other one always is (R163). -/
def Instr.wellFormed (c : Config) : Instr → Bool
  | .mul .. => c.optional.mul
  | .div .. => c.optional.div
  | .mulc .. => c.optional.mulc
  | .divc .. => c.optional.divc
  | .priv .. | .ld .. | .st .. | .jmp .. | .beq .. | .bne .. | .ldr .. => true
  | .add .. | .sub .. | .cmpeq .. | .cmplt .. | .cmple .. => true
  | .and .. | .or .. | .xor .. | .shl .. | .shr .. | .sra .. => true
  | .addc .. | .subc .. | .cmpeqc .. | .cmpltc .. | .cmplec .. => true
  | .andc .. | .orc .. | .xorc .. | .shlc .. | .shrc .. | .srac .. => true

/-- The three vectors are multiples of 4 (R2, R35, R228). -/
def Config.wellFormed (c : Config) : Bool :=
  decide (c.vecReset.toNat % 4 = 0) && decide (c.vecIllop.toNat % 4 = 0) && decide (c.vecIrq.toNat % 4 = 0)

/-- A value written as a literal lies in -32768 to 32767 (R79). -/
def literalFits (v : Int) : Bool := decide (-32768 ≤ v) && decide (v ≤ 32767)

/-- How far a label lies past the instruction after the one at `at_` (R78), as the 32-bit difference that the target
formula of R70 undoes. DEDUCED: the difference is taken modulo 2^32 because the target is (log entry 26). -/
def labelDistance (at_ label : Word) : Int := (label - (at_ + 4)).toInt

/-- A label that a branch or LDR at `at_` can name: a multiple of 4 away, and 4 times a literal that fits (R78). -/
def labelFits (at_ label : Word) : Bool :=
  decide (labelDistance at_ label % 4 = 0) && literalFits (labelDistance at_ label / 4)

/-- A label whose own address an LD or ST literal can hold: 0x00000000 to 0x00007FFF or 0xFFFF8000 to 0xFFFFFFFF
(R79, R178). -/
def addressFits (label : Word) : Bool := literalFits label.toInt

/-- A number of stack slots that ALLOCATE and DEALLOCATE can name (R184, R185). -/
def slotsFit (k : Nat) : Bool := decide (k ≤ 8191)

end Sys2Proof
end

