-- ==== Sys2Proof/Machine/Ops.lean ====
section
/-! DEFINITION. The named operations over registers and memory, the one operation that takes a trap, the jump that
returns from one, and the fetch. -/

namespace Sys2Proof.Machine

/-- What an operation over the state answers: a value, a fault or a refusal. -/
abbrev Answer (α : Type) := Host.Outcome α Fault Refusal

/-- What a step or a meaning answers. -/
abbrev Result := Host.Outcome State Fault Refusal

/-- Go on with the value of an answer, or stop as it stops. -/
def andThen {α β : Type} (x : Answer α) (f : α → Answer β) : Answer β :=
  match x with
  | .next a => f a
  | .fault r => .fault r
  | .refused r => .refused r

/-! ### Registers and the other fields -/

/-- `x[r]`: register 31 reads 0 (10_state.md R22). -/
def State.reg (s : State) (r : Reg) : Word :=
  if h : r.val < 31 then s.regs[r.val] else 0

/-- `x[r] <- v`: a write to register 31 is discarded (10_state.md R22). -/
def State.setReg (s : State) (r : Reg) (v : Word) : State :=
  if h : r.val < 31 then { s with regs := s.regs.set r.val v h } else s

/-- `pc <- t`. -/
def State.setPc (s : State) (t : Word) : State := { s with pc := t }

/-- `mode <- m`. -/
def State.setMode (s : State) (m : Mode) : State := { s with mode := m }

/-- Replace the memory. -/
def State.setMem (s : State) (m : Memory) : State := { s with mem := m }

/-- `pc <- pc + 4`, modulo 2^32 (10_state.md R26). -/
def State.advance (s : State) : State := s.setPc (s.pc + 4)

/-! ### Memory, byte by byte -/

/-- What an address that memory does not list reads as. DESIGN CHOICE (the spec: unspecified, R36), log entry 3. -/
def unlistedByte : Byte := 0

/-- The canonical form: addresses strictly rising, all in the 32-bit space, no entry that an unlisted address would
read as anyway. -/
abbrev Memory.wf (m : Memory) : Prop :=
  m.Pairwise (fun x y => x.1 < y.1) ∧ ∀ c ∈ m, c.1 < 2 ^ 32 ∧ c.2 ≠ unlistedByte

/-- The byte at an address. -/
def Memory.read : Memory → Nat → Byte
  | [], _ => unlistedByte
  | (a', b') :: m, a => if a = a' then b' else Memory.read m a

/-- Put a byte before the rest of memory, unless it is what an unlisted address reads as. -/
def Memory.cons (a : Nat) (b : Byte) (m : Memory) : Memory :=
  if b = unlistedByte then m else (a, b) :: m

/-- Make `b` the byte at an address, in canonical form. -/
def Memory.write : Memory → Nat → Byte → Memory
  | [], a, b => Memory.cons a b []
  | (a', b') :: m, a, b =>
    if a < a' then Memory.cons a b ((a', b') :: m)
    else if a = a' then Memory.cons a b m
    else (a', b') :: Memory.write m a b

/-- The word whose four bytes start at `a` (20_memory.md R40, R45). -/
def Memory.readWord (order : ByteOrder) (m : Memory) (a : Nat) : Word :=
  wordOfBytes order (m.read a) (m.read (a + 1)) (m.read (a + 2)) (m.read (a + 3))

/-- Make `w` the word whose four bytes start at `a` (20_memory.md R40, R46). -/
def Memory.writeWord (order : ByteOrder) (m : Memory) (a : Nat) (w : Word) : Memory :=
  (((m.write a (byteOfWord order w 0)).write (a + 1) (byteOfWord order w 1)).write (a + 2)
    (byteOfWord order w 2)).write (a + 3) (byteOfWord order w 3)

/-! ### Word accesses: alignment, presence, then the four bytes -/

/-- An address whose two low bits are 0, a multiple of 4 (20_memory.md R42). -/
def aligned (a : Word) : Bool := a.extractLsb' 0 2 == 0#2

/-- An address with its two low bits taken as 00: `a[31:2] ++ 00` (20_memory.md R42, R43). -/
def alignDown (a : Word) : Word := a.extractLsb' 2 30 ++ 0#2

/-- `MEM_VALID` (20_memory.md R47) at an aligned word address: one region holds all four bytes. -/
def memValid (c : Config) (a : Word) : Bool :=
  c.regions.any fun r => decide (r.base ≤ a.toNat) && decide (a.toNat + 4 ≤ r.base + r.size)

/-- The aligned address at which an access with effective address `ea` is made, by `MISALIGNED_DATA` (20_memory.md
R42). -/
def dataAddress (s : State) (ea : Word) : Answer Word :=
  if aligned ea then .next ea
  else match s.cfg.misalignedData with
    | .maskLow2 => .next (alignDown ea)
    | .refuse => .refused (.misalignedData ea)

/-- An aligned address with memory (20_memory.md R47), after R42. -/
def checkedAddress (s : State) (ea : Word) : Answer Word :=
  andThen (dataAddress s ea) fun a =>
    if memValid s.cfg a then .next a else .fault (.noMemory a)

/-- `MemRead(ea, 4)` (20_memory.md R45). -/
def memRead (s : State) (ea : Word) : Answer Word :=
  andThen (checkedAddress s ea) fun a => .next (s.mem.readWord s.cfg.byteOrder a.toNat)

/-- `MemWrite(ea, 4, v)` (20_memory.md R46). -/
def memWrite (s : State) (ea : Word) (v : Word) : Result :=
  andThen (checkedAddress s ea) fun a => .next (s.setMem (s.mem.writeWord s.cfg.byteOrder a.toNat v))

/-- The host loads the bytes of an image into memory before a run, in order (70_reset_and_hazards.md R271, log entry 4);
a cell outside the 32-bit space is no address and is left out. -/
def State.load (s : State) (image : List Host.Cell) : State :=
  s.setMem (image.foldl (fun m c => if c.1 < 2 ^ 32 then m.write c.1 c.2 else m) s.mem)

/-- What a privileged instruction of the platform's own does to the state (43_privileged.md R160): all it may write, and
neither the input irq nor the parameters. -/
def applyPriv (e : PrivEffect) (s : State) : State :=
  ((({ s with regs := e.regs } : State).setPc (e.pcWord ++ 0#2)).setMode e.mode).load
    (e.stores.map fun c => (c.1.toNat, c.2))

/-! ### Traps and the return from them -/

/-- The two traps (60_exceptions.md R220). -/
inductive Trap
  | illegalInstruction
  | interrupt
deriving DecidableEq, Repr

/-- The number the spec gives a trap for bookkeeping: its PCSEL value (60_exceptions.md R222). No step stores it. -/
def trapNumber : Trap → Nat
  | .illegalInstruction => 3
  | .interrupt => 4

/-- Where a trap sends `pc` (60_exceptions.md R222, R228). -/
def trapVector (c : Config) : Trap → Word
  | .illegalInstruction => c.vecIllop
  | .interrupt => c.vecIrq

/-- Trap entry at the instruction at `pc` (60_exceptions.md R224, R232): `x[30] <- pc + 4`, supervisor mode, `pc` at the
trap's vector, and nothing else. The mode is the spec's own decision D14 (log entry 14). -/
def takeTrap (t : Trap) (s : State) : State :=
  ((s.setReg xp (s.pc + 4)).setMode .supervisor).setPc (trapVector s.cfg t)

/-- `raise IllegalInstruction` (60_exceptions.md R224). -/
def raiseIllegal (s : State) : Result := .next (takeTrap .illegalInstruction s)

/-- `JMP_MODE(mode, t)` (60_exceptions.md R236). -/
def jmpMode (c : Config) (m : Mode) (t : Word) : Mode :=
  match c.jmpMode with
  | .keep => m
  | .platform => Config.jmpModePlatform m t
  | .bit31 =>
    match m with
    | .user => .user
    | .supervisor => if t.getLsbD 31 then .supervisor else .user

/-- The aligned address a jump to `t` goes to, by `MISALIGNED_PC` (20_memory.md R43). -/
def jumpAddress (s : State) (t : Word) : Answer Word :=
  if aligned t then .next t
  else match s.cfg.misalignedPc with
    | .maskLow2 => .next (alignDown t)
    | .refuse => .refused (.misalignedJump t)

/-- The jump to `t` that writes `pc + 4` into `rc` (42_other.md R142). It is also the return from a trap: `JMP(XP)`
restores `pc` from R30 and, by `JMP_MODE`, user mode (60_exceptions.md R237). -/
def jumpLinked (s : State) (t : Word) (rc : Reg) : Result :=
  andThen (jumpAddress s t) fun a =>
    .next (((s.setReg rc (s.pc + 4)).setMode (jmpMode s.cfg s.mode t)).setPc a)

/-! ### The start of a step -/

/-- The sample of an input at the coming step (log entry 5). -/
def irqNow (i : IrqInput) : Bool :=
  match i.samples, i.after with
  | b :: _, _ => b
  | [], .repeating pattern => pattern.headD false
  | [], .free tick => Config.irqFree tick

/-- An input from the step after the coming one on: a repeated pattern goes round, a free input goes on (log entry 5). -/
def irqLater (i : IrqInput) : IrqInput :=
  match i.samples, i.after with
  | _ :: later, a => ⟨later, a⟩
  | [], .repeating [] => ⟨[], .repeating []⟩
  | [], .repeating (b :: pattern) => ⟨[], .repeating (pattern ++ [b])⟩
  | [], .free tick => ⟨[], .free (tick + 1)⟩

/-- The input that has one given sample first and then goes on as another. -/
def irqThen (b : Bool) (later : IrqInput) : IrqInput := ⟨b :: later.samples, later.after⟩

/-- The sample of `irq` at the coming step (10_state.md R33). -/
def irqHigh (s : State) : Bool := irqNow s.irq

/-- The state with the coming step's sample of `irq` used up; the core remembers nothing of it (R33). -/
def State.sampled (s : State) : State := { s with irq := irqLater s.irq }

/-- The interrupt test, before the fetch (60_exceptions.md R231, R234). -/
def interruptTaken (s : State) : Bool :=
  (s.mode == .user || s.cfg.irqInSupervisor) && irqHigh s

/-- The instruction fetch `iw <- MemRead(pc, 4)` (20_memory.md R44). -/
def fetch (s : State) : Answer Word := memRead s s.pc

/-! ### Ends shared by the meanings -/

/-- `x[rc] <- v; pc <- pc + 4` (40_operate.md R100). -/
def writeResult (s : State) (rc : Reg) (v : Word) : Result := .next ((s.setReg rc v).advance)

/-- A starred opcode the implementation lacks raises IllegalInstruction (43_privileged.md R163). -/
def ifPresent (present : Bool) (s : State) (r : Result) : Result :=
  if present then r else raiseIllegal s

/-- `x[rc] <- MemRead(ea, 4); pc <- pc + 4` (42_other.md R140, R145). -/
def loadInto (s : State) (ea : Word) (rc : Reg) : Result :=
  andThen (memRead s ea) fun w => writeResult s rc w

/-- `MemWrite(ea, 4, v); pc <- pc + 4` (42_other.md R141). -/
def storeFrom (s : State) (ea : Word) (v : Word) : Result :=
  andThen (memWrite s ea v) fun t => .next t.advance

/-- `x[rc] <- pc + 4`, then `pc` at the target or at `pc + 4` (42_other.md R143, R144). -/
def branchLinked (s : State) (taken : Bool) (target : Word) (rc : Reg) : Result :=
  .next ((s.setReg rc (s.pc + 4)).setPc (if taken then target else s.pc + 4))

/-- Place a word where the next fetch reads, at `pc` with its two low bits ignored; and where an interrupt would be
taken instead of the fetch, lower that one sample of `irq` (log entry 4). -/
def placeFetchWord (s : State) (iw : Word) : State :=
  { s with
    mem := s.mem.writeWord s.cfg.byteOrder (alignDown s.pc).toNat iw
    irq := if interruptTaken s then irqThen false (irqLater s.irq) else s.irq }

end Sys2Proof.Machine
end

