-- ==== Sys2Proof/Machine/Flags.lean ====
section
/-! DEFINITION. The β has no flags and no condition codes (10_state.md R29). What takes their place: the wire Z of one
step (45_control_logic.md R209) and the value a compare writes into a general register ("result = 1 if true, 0 if
false", 40_operate.md R110). -/

namespace Sys2Proof.Machine

/-- The wire Z: all 32 bits of `x[Ra]` are 0 (45_control_logic.md R209). -/
def zWire (a : Word) : Bool := a == 0

/-- The value a compare writes (40_operate.md R110 to R112). -/
def truth (b : Bool) : Word := if b then 1 else 0

end Sys2Proof.Machine
end

