-- ==== Sys2Proof/Machine/Alu.lean ====
section
/-! DEFINITION. The 13 operations of the operate class (40_operate.md R103 to R116) as functions of the two operands,
`a` the left one (R100). Where the result is arithmetic it is computed exactly on integers and narrowed at the end. -/

namespace Sys2Proof.Machine

/-- The 13 operations, `F(op)` of 45_control_logic.md R202. -/
inductive AluOp
  | add | sub | mul | div | cmpeq | cmplt | cmple | and | or | xor | shl | shr | sra
deriving DecidableEq, Repr

/-- "plus", modulo 2^32 (R103). -/
def aluAdd (a b : Word) : Word := a + b

/-- "minus", modulo 2^32 (R104). -/
def aluSub (a b : Word) : Word := a - b

/-- "multiply": the low 32 bits of the product (R105). -/
def aluMul (a b : Word) : Word := a * b

/-- The two pairs of operands for which the spec states no quotient (R106). -/
def divCornerCase (a b : Word) : Bool :=
  decide (b.toInt = 0) || (decide (a.toInt = -2 ^ 31) && decide (b.toInt = -1))

/-- "divided by": the signed quotient rounded toward zero; on the two corners the free value `Config.divCornerValue`
(R106, log entry 9). -/
def aluDiv (a b : Word) : Word :=
  if divCornerCase a b then Config.divCornerValue a b else BitVec.ofInt 32 (a.toInt.tdiv b.toInt)

/-- "equal", all 32 bits (R110). -/
def aluCmpeq (a b : Word) : Word := truth (a == b)

/-- "less than", signed (R111). -/
def aluCmplt (a b : Word) : Word := truth (decide (a.toInt < b.toInt))

/-- "less than or equal", signed (R112). -/
def aluCmple (a b : Word) : Word := truth (decide (a.toInt ≤ b.toInt))

/-- "bitwise and" (R107). -/
def aluAnd (a b : Word) : Word := a &&& b

/-- "bitwise or" (R108). -/
def aluOr (a b : Word) : Word := a ||| b

/-- "bitwise exclusive or" (R109). -/
def aluXor (a b : Word) : Word := a ^^^ b

/-- The shift amount, the low 5 bits of the second operand read as 0 to 31 (R113). -/
def shiftAmount (b : Word) : Nat := (b.extractLsb' 0 5).toNat

/-- "left shift" (R113). -/
def aluShl (a b : Word) : Word := a <<< shiftAmount b

/-- "right shift w/o sign extension" (R114). -/
def aluShr (a b : Word) : Word := a >>> shiftAmount b

/-- "right shift w/ sign extension" (R115). -/
def aluSra (a b : Word) : Word := a.sshiftRight (shiftAmount b)

/-- The division with `DIV_CORNER` (R106): where that is refuse, the two corners have no result; else `aluDiv`. -/
def divAnswer (c : Config) (a b : Word) : Answer Word :=
  match c.divCorner with
  | .total => .next (aluDiv a b)
  | .refuse =>
    if b.toInt = 0 then .refused .divisionByZero
    else if a.toInt = -2 ^ 31 ∧ b.toInt = -1 then .refused .quotientOverflow
    else .next (aluDiv a b)

/-- The function an operation names (45_control_logic.md R202). -/
def alu : AluOp → Word → Word → Word
  | .add => aluAdd
  | .sub => aluSub
  | .mul => aluMul
  | .div => aluDiv
  | .cmpeq => aluCmpeq
  | .cmplt => aluCmplt
  | .cmple => aluCmple
  | .and => aluAnd
  | .or => aluOr
  | .xor => aluXor
  | .shl => aluShl
  | .shr => aluShr
  | .sra => aluSra

end Sys2Proof.Machine
end

