-- ==== Sys2Proof/Machine/Operate.lean ====
section
/-! DEFINITION. The operate class, register forms (40_operate.md R100 to R116): `x[Rc] <- x[Ra] op x[Rb]` and
`pc <- pc + 4`, both operands read before the result is written (10_state.md R24). -/

namespace Sys2Proof.Machine

/-- ADD, "plus" (R103). -/
def execAdd (ra rb rc : Reg) (s : State) : Result :=
  writeResult s rc (aluAdd (s.reg ra) (s.reg rb))

/-- SUB, "minus" (R104). -/
def execSub (ra rb rc : Reg) (s : State) : Result :=
  writeResult s rc (aluSub (s.reg ra) (s.reg rb))

/-- MUL, "multiply", optional (R105, R163). -/
def execMul (ra rb rc : Reg) (s : State) : Result :=
  ifPresent s.cfg.optional.mul s (writeResult s rc (aluMul (s.reg ra) (s.reg rb)))

/-- DIV, "divided by", optional (R106, R163). -/
def execDiv (ra rb rc : Reg) (s : State) : Result :=
  ifPresent s.cfg.optional.div s (andThen (divAnswer s.cfg (s.reg ra) (s.reg rb)) fun r => writeResult s rc r)

/-- CMPEQ, "equal" (R110). -/
def execCmpeq (ra rb rc : Reg) (s : State) : Result :=
  writeResult s rc (aluCmpeq (s.reg ra) (s.reg rb))

/-- CMPLT, "less than" (R111). -/
def execCmplt (ra rb rc : Reg) (s : State) : Result :=
  writeResult s rc (aluCmplt (s.reg ra) (s.reg rb))

/-- CMPLE, "less than or equal" (R112). -/
def execCmple (ra rb rc : Reg) (s : State) : Result :=
  writeResult s rc (aluCmple (s.reg ra) (s.reg rb))

/-- AND, "bitwise and" (R107). -/
def execAnd (ra rb rc : Reg) (s : State) : Result :=
  writeResult s rc (aluAnd (s.reg ra) (s.reg rb))

/-- OR, "bitwise or" (R108). -/
def execOr (ra rb rc : Reg) (s : State) : Result :=
  writeResult s rc (aluOr (s.reg ra) (s.reg rb))

/-- XOR, "bitwise exclusive or" (R109). -/
def execXor (ra rb rc : Reg) (s : State) : Result :=
  writeResult s rc (aluXor (s.reg ra) (s.reg rb))

/-- SHL, "left shift" (R113). -/
def execShl (ra rb rc : Reg) (s : State) : Result :=
  writeResult s rc (aluShl (s.reg ra) (s.reg rb))

/-- SHR, "right shift w/o sign extension" (R114). -/
def execShr (ra rb rc : Reg) (s : State) : Result :=
  writeResult s rc (aluShr (s.reg ra) (s.reg rb))

/-- SRA, "right shift w/ sign extension" (R115). -/
def execSra (ra rb rc : Reg) (s : State) : Result :=
  writeResult s rc (aluSra (s.reg ra) (s.reg rb))

end Sys2Proof.Machine
end

