-- ==== Sys2Proof/Machine/Operands.lean ====
section
/-! DEFINITION. The operand forms: the sign-extended literal (30_encoding.md R69), the two addressing modes
(42_other.md R146) and the branch target (30_encoding.md R70). -/

namespace Sys2Proof.Machine

/-- `sext_32(literal)` (30_encoding.md R69). -/
def sext (lit : Lit) : Word := lit.signExtend 32

/-- Base plus displacement in bytes: `x[Ra] + sext_32(literal)` modulo 2^32 (42_other.md R146). -/
def baseAddress (s : State) (ra : Reg) (lit : Lit) : Word := s.reg ra + sext lit

/-- Relative to `pc`, in words: `pc + 4 + 4 * sext_32(literal)` modulo 2^32 (30_encoding.md R70, 42_other.md R146). -/
def relativeAddress (s : State) (lit : Lit) : Word := s.pc + 4 + 4 * sext lit

end Sys2Proof.Machine
end

