-- ==== Sys2Proof/Machine/OperateConst.lean ====
section
/-! DEFINITION. The operate class, literal forms (41_operate_const.md R120 to R134): `x[Rc] <- x[Ra] op sext_32(literal)`
and `pc <- pc + 4`, with exactly the operation of the register twin; the literal is sign-extended for every one of them
(30_encoding.md R69). -/

namespace Sys2Proof.Machine

/-- ADDC, "plus" (R122). -/
def execAddc (ra : Reg) (lit : Lit) (rc : Reg) (s : State) : Result :=
  writeResult s rc (aluAdd (s.reg ra) (sext lit))

/-- SUBC, "minus" (R123). -/
def execSubc (ra : Reg) (lit : Lit) (rc : Reg) (s : State) : Result :=
  writeResult s rc (aluSub (s.reg ra) (sext lit))

/-- MULC, "multiply", optional (R124, R163). -/
def execMulc (ra : Reg) (lit : Lit) (rc : Reg) (s : State) : Result :=
  ifPresent s.cfg.optional.mulc s (writeResult s rc (aluMul (s.reg ra) (sext lit)))

/-- DIVC, "divided by", optional (R125, R163). -/
def execDivc (ra : Reg) (lit : Lit) (rc : Reg) (s : State) : Result :=
  ifPresent s.cfg.optional.divc s (andThen (divAnswer s.cfg (s.reg ra) (sext lit)) fun r => writeResult s rc r)

/-- CMPEQC, "equal" (R129). -/
def execCmpeqc (ra : Reg) (lit : Lit) (rc : Reg) (s : State) : Result :=
  writeResult s rc (aluCmpeq (s.reg ra) (sext lit))

/-- CMPLTC, "less than" (R130). -/
def execCmpltc (ra : Reg) (lit : Lit) (rc : Reg) (s : State) : Result :=
  writeResult s rc (aluCmplt (s.reg ra) (sext lit))

/-- CMPLEC, "less than or equal" (R131). -/
def execCmplec (ra : Reg) (lit : Lit) (rc : Reg) (s : State) : Result :=
  writeResult s rc (aluCmple (s.reg ra) (sext lit))

/-- ANDC, "bitwise and" (R126). -/
def execAndc (ra : Reg) (lit : Lit) (rc : Reg) (s : State) : Result :=
  writeResult s rc (aluAnd (s.reg ra) (sext lit))

/-- ORC, "bitwise or" (R127). -/
def execOrc (ra : Reg) (lit : Lit) (rc : Reg) (s : State) : Result :=
  writeResult s rc (aluOr (s.reg ra) (sext lit))

/-- XORC, "bitwise exclusive or" (R128). -/
def execXorc (ra : Reg) (lit : Lit) (rc : Reg) (s : State) : Result :=
  writeResult s rc (aluXor (s.reg ra) (sext lit))

/-- SHLC, "left shift" (R132). -/
def execShlc (ra : Reg) (lit : Lit) (rc : Reg) (s : State) : Result :=
  writeResult s rc (aluShl (s.reg ra) (sext lit))

/-- SHRC, "right shift w/o sign extension" (R133). -/
def execShrc (ra : Reg) (lit : Lit) (rc : Reg) (s : State) : Result :=
  writeResult s rc (aluShr (s.reg ra) (sext lit))

/-- SRAC, "right shift w/ sign extension" (R134). -/
def execSrac (ra : Reg) (lit : Lit) (rc : Reg) (s : State) : Result :=
  writeResult s rc (aluSra (s.reg ra) (sext lit))

end Sys2Proof.Machine
end

