-- ==== Sys2Proof/Machine/Other.lean ====
section
/-! DEFINITION. The "Other" instructions (42_other.md R140 to R147): loads, store, jump and branches. -/

namespace Sys2Proof.Machine

/-- LD, load (R140): the read is made even where Rc is R31. -/
def execLd (ra : Reg) (lit : Lit) (rc : Reg) (s : State) : Result :=
  loadInto s (baseAddress s ra lit) rc

/-- ST, store (R141). -/
def execSt (rc : Reg) (lit : Lit) (ra : Reg) (s : State) : Result :=
  storeFrom s (baseAddress s ra lit) (s.reg rc)

/-- JMP, jump to register (R142): the target is read before the link is written (10_state.md R24). -/
def execJmp (ra rc : Reg) (s : State) : Result :=
  jumpLinked s (s.reg ra) rc

/-- BEQ, also BF, branch if equal to zero (R143): the register is tested before the link is written. -/
def execBeq (ra : Reg) (lit : Lit) (rc : Reg) (s : State) : Result :=
  branchLinked s (zWire (s.reg ra)) (relativeAddress s lit) rc

/-- BNE, also BT, branch if not equal to zero (R144). -/
def execBne (ra : Reg) (lit : Lit) (rc : Reg) (s : State) : Result :=
  branchLinked s (!zWire (s.reg ra)) (relativeAddress s lit) rc

/-- LDR, load relative (R145). -/
def execLdr (lit : Lit) (rc : Reg) (s : State) : Result :=
  loadInto s (relativeAddress s lit) rc

end Sys2Proof.Machine
end

