-- ==== Sys2Proof/Machine/Privileged.lean ====
section
/-! DEFINITION. Opcode 0x00, the privileged instructions (43_privileged.md R160). -/

namespace Sys2Proof.Machine

/-- PRIV (R160): IllegalInstruction in user mode; in supervisor mode what PRIV_EXEC says (log entry 11). -/
def execPriv (rest : BitVec 26) (s : State) : Result :=
  match s.mode with
  | .user => raiseIllegal s
  | .supervisor =>
    match s.cfg.privExec with
    | .illegalInstruction => raiseIllegal s
    | .refuse => .refused (.privilegedInstruction rest)
    | .platform => .next (applyPriv (Config.privExecPlatform rest s.regs s.pc s.mem) s)

end Sys2Proof.Machine
end

