-- ==== Sys2Proof/Machine/Execute.lean ====
section
/-! DEFINITION. The execution of a fetched word (00_scope.md R6). -/

namespace Sys2Proof.Machine

/-- Execute a fetched word: the instruction it decodes to, or IllegalInstruction for an unassigned opcode
(43_privileged.md R161). -/
def execWord (iw : Word) (s : State) : Host.Outcome State Fault Refusal :=
  match decode iw with
  | .ok i => exec i s
  | .error _ => raiseIllegal s

end Sys2Proof.Machine
end

