-- ==== Sys2Proof/Machine/Step.lean ====
section
/-! DEFINITION. One step of the machine (00_scope.md R6), and the placing of a word where it fetches. -/

namespace Sys2Proof.Machine

/-- One step (R6): the interrupt test (60_exceptions.md R231); if none is taken, the fetch (20_memory.md R44) and the
one rule the word selects. The step uses up one sample of irq (log entry 5). -/
def step (s : State) : Host.Outcome State Fault Refusal :=
  if interruptTaken s then .next (takeTrap .interrupt s.sampled)
  else andThen (fetch s.sampled) fun iw => execWord iw s.sampled

/-- The state with an instruction, whose low `nbits` bits are those of `w` and whose other bits are 0, where step
fetches its next instruction (log entry 4). -/
def State.withFetchWord (s : State) (nbits w : Nat) : State :=
  placeFetchWord s (BitVec.ofNat 32 (w % 2 ^ nbits))

end Sys2Proof.Machine
end

