-- ==== Sys2Proof/Machine/Control.lean ====
section
/-! DEFINITION. The control-signal table (45_control_logic.md R200) and the datapath it drives, with the meanings of the
signals' values that R202 to R210 derive (log entry 24): a second design of the same machine. No step of the model goes
through it; statements compare it with the instructions' own meanings (R213). -/

namespace Sys2Proof.Machine

/-- The columns of the table, cases of one step (R201); OP and OPC with the operation the opcode names. -/
inductive Column
  | op (f : AluOp)
  | opc (f : AluOp)
  | ld
  | st
  | jmp
  | beq
  | bne
  | ldr
  | illop
  | irq
deriving DecidableEq, Repr

/-- The values of ALUFN (R202). -/
inductive AluFn
  | f (op : AluOp)
  | plus
  | a
deriving DecidableEq, Repr

/-- The nine signals; `none` is the source's "--", a value that does not matter (R200). -/
structure Signals where
  alufn : Option AluFn
  werf : Bool
  bsel : Option Bool
  wdsel : Option (Fin 3)
  wr : Bool
  ra2sel : Option Bool
  pcsel : Fin 5
  asel : Option Bool
  wasel : Option Bool
deriving DecidableEq, Repr

/-- The table, column by column; `z` is the wire Z, which the entries "Z ? 1:0" and "Z ? 0:1" of PCSEL read (R200,
R208, R209). -/
def signals (z : Bool) : Column → Signals
  | .op f => ⟨some (.f f), true, some false, some 1, false, some false, 0, some false, some false⟩
  | .opc f => ⟨some (.f f), true, some true, some 1, false, none, 0, some false, some false⟩
  | .ld => ⟨some .plus, true, some true, some 2, false, none, 0, some false, some false⟩
  | .st => ⟨some .plus, false, some true, none, true, some true, 0, some false, none⟩
  | .jmp => ⟨none, true, none, some 0, false, none, 2, none, some false⟩
  | .beq => ⟨none, true, none, some 0, false, none, if z then 1 else 0, none, some false⟩
  | .bne => ⟨none, true, none, some 0, false, none, if z then 0 else 1, none, some false⟩
  | .ldr => ⟨some .a, true, none, some 2, false, none, 0, some true, some false⟩
  | .illop => ⟨none, true, none, some 0, false, none, 3, none, some true⟩
  | .irq => ⟨none, true, none, some 0, false, none, 4, none, some true⟩

/-- What stands on the wires whose value does not matter: one value for every "--", and the word on the instruction
wires in a step that fetches none (R200, R212). -/
structure DontCare where
  alufn : AluFn
  bsel : Bool
  wdsel : Fin 3
  ra2sel : Bool
  asel : Bool
  wasel : Bool
  iw : Word
deriving DecidableEq, Repr

/-- The operation of row and column of the operate rows of the opcode map, opcode bits 3:0 (30_encoding.md R67, R68). -/
def aluOpOf : BitVec 4 → Option AluOp
  | 0x0#4 => some .add
  | 0x1#4 => some .sub
  | 0x2#4 => some .mul
  | 0x3#4 => some .div
  | 0x4#4 => some .cmpeq
  | 0x5#4 => some .cmplt
  | 0x6#4 => some .cmple
  | 0x8#4 => some .and
  | 0x9#4 => some .or
  | 0xA#4 => some .xor
  | 0xC#4 => some .shl
  | 0xD#4 => some .shr
  | 0xE#4 => some .sra
  | _ => none

/-- Whether the implementation has an operation in the register format (43_privileged.md R163). -/
def hasOp (c : Config) : AluOp → Bool
  | .mul => c.optional.mul
  | .div => c.optional.div
  | _ => true

/-- Whether the implementation has an operation in the literal format (43_privileged.md R163). -/
def hasOpc (c : Config) : AluOp → Bool
  | .mul => c.optional.mulc
  | .div => c.optional.divc
  | _ => true

/-- The column of a fetched word: its format by opcode bits 5:4, then bits 3:0 (30_encoding.md R65, R67); ILLOP for a
word the implementation does not execute (R201): an unassigned opcode, an absent optional one, and opcode 0x00 in user
mode or where PRIV_EXEC makes it illegal. DESIGN CHOICE, log entry 32: opcode 0x00 in supervisor mode where PRIV_EXEC is
refuse or the platform's own has no column in R201; it is put under ILLOP too. -/
def columnOf (c : Config) (iw : Word) : Column :=
  let low := (opcodeField iw).extractLsb' 0 4
  match (opcodeField iw).extractLsb' 4 2 with
  | 0b10#2 =>
    match aluOpOf low with
    | some f => if hasOp c f then .op f else .illop
    | none => .illop
  | 0b11#2 =>
    match aluOpOf low with
    | some f => if hasOpc c f then .opc f else .illop
    | none => .illop
  | 0b01#2 =>
    match low with
    | 0x8#4 => .ld
    | 0x9#4 => .st
    | 0xB#4 => .jmp
    | 0xD#4 => .beq
    | 0xE#4 => .bne
    | 0xF#4 => .ldr
    | _ => .illop
  | _ => .illop

/-- The unit's output (R202). -/
def aluOutput (fn : AluFn) (a b : Word) : Word :=
  match fn with
  | .f op => alu op a b
  | .plus => a + b
  | .a => a

/-- The unit's output as a register takes it: a division may have no result (40_operate.md R106). -/
def aluAnswer (c : Config) (fn : AluFn) (a b : Word) : Answer Word :=
  match fn with
  | .f .div => divAnswer c a b
  | fn => .next (aluOutput fn a b)

/-- The next `pc` and mode, given the state whose registers and memory are already written (R208; the mode is not in
the table: 60_exceptions.md R235 for the traps, R236 for JMP). -/
def selectPc (pcsel : Fin 5) (iw : Word) (s written : State) : Result :=
  match pcsel with
  | 0 => .next (written.setPc (s.pc + 4))
  | 1 => .next (written.setPc (relativeAddress s (litField iw)))
  | 2 =>
    andThen (jumpAddress s (s.reg (raField iw))) fun a =>
      .next ((written.setMode (jmpMode s.cfg s.mode (s.reg (raField iw)))).setPc a)
  | 3 => .next ((written.setMode .supervisor).setPc s.cfg.vecIllop)
  | 4 => .next ((written.setMode .supervisor).setPc s.cfg.vecIrq)

/-- One pass through the datapath (R202 to R210): the two read ports, the unit, memory (written where WR is 1, read
where a register takes the word read; a division stops only where a register takes its result), the write port, the
next `pc`. -/
def datapath (fill : DontCare) (sg : Signals) (iw : Word) (s : State) : Result :=
  let port2 := s.reg (if sg.ra2sel.getD fill.ra2sel then rcField iw else rbField iw)
  let in1 := if sg.asel.getD fill.asel then relativeAddress s (litField iw) else s.reg (raField iw)
  let in2 := if sg.bsel.getD fill.bsel then sext (litField iw) else port2
  let fn := sg.alufn.getD fill.alufn
  let out := aluOutput fn in1 in2
  let wdsel := sg.wdsel.getD fill.wdsel
  let writeTo := if sg.wasel.getD fill.wasel then xp else rcField iw
  andThen (if sg.wr then memWrite s out port2 else .next s) fun stored =>
    andThen (if sg.werf && wdsel == 2 then memRead s out else .next 0) fun loaded =>
      andThen (if sg.werf && wdsel == 1 then aluAnswer s.cfg fn in1 in2 else .next out) fun result =>
        let value := match wdsel with
          | 0 => s.pc + 4
          | 1 => result
          | 2 => loaded
        selectPc sg.pcsel iw s (if sg.werf then stored.setReg writeTo value else stored)

/-- One step by the control-signal table (R201): the IRQ column where the interrupt is taken, else the column of the
word fetched. -/
def controlStep (fill : DontCare) (s : State) : Result :=
  if interruptTaken s then datapath fill (signals (zWire (s.reg (raField fill.iw))) .irq) fill.iw s.sampled
  else andThen (fetch s.sampled) fun iw =>
    datapath fill (signals (zWire (s.reg (raField iw))) (columnOf s.cfg iw)) iw s.sampled

end Sys2Proof.Machine
end

