-- ==== Sys2Proof/Machine/Macros.lean ====
section
/-! DEFINITION. The assembler's layer: how a label or a value becomes a literal (30_encoding.md R78, R79) and what the
15 macros of 44_macros_and_conventions.md R171 to R185 expand to. The machine sees only the instructions. -/

namespace Sys2Proof.Machine

/-- The literal of a branch or LDR at `at_` that names `label`; none where it cannot be encoded (30_encoding.md R78). -/
def labelLiteral (at_ label : Word) : Option Lit :=
  if labelFits at_ label then some (BitVec.ofInt 16 (labelDistance at_ label / 4)) else none

/-- The literal that holds a written value; none where it does not fit (30_encoding.md R79). -/
def valueLiteral (v : Int) : Option Lit :=
  if literalFits v then some (BitVec.ofInt 16 v) else none

/-- The literal that holds a label's own address; none where it does not fit (R178). -/
def addressLiteral (label : Word) : Option Lit :=
  if addressFits label then some (label.extractLsb' 0 16) else none

/-- The literal `4*k` of ALLOCATE and DEALLOCATE (R184, R185). -/
def slotsLiteral (k : Nat) : Option Lit :=
  if slotsFit k then some (BitVec.ofNat 16 (4 * k)) else none

/-- The rows of the macro table, in its order; a label stands for the address it names. -/
inductive Macro
  /-- BEQ(Ra, label) (R171). -/
  | beq (ra : Reg) (label : Word)
  /-- BF(Ra, label) (R172). -/
  | bf (ra : Reg) (label : Word)
  /-- BNE(Ra, label) (R173). -/
  | bne (ra : Reg) (label : Word)
  /-- BT(Ra, label) (R174). -/
  | bt (ra : Reg) (label : Word)
  /-- BR(label, Rc) (R175). -/
  | brLinked (label : Word) (rc : Reg)
  /-- BR(label) (R176). -/
  | br (label : Word)
  /-- JMP(Ra) (R177). -/
  | jmp (ra : Reg)
  /-- LD(label, Rc) (R178). -/
  | ld (label : Word) (rc : Reg)
  /-- ST(Rc, label) (R179). -/
  | st (rc : Reg) (label : Word)
  /-- MOVE(Ra, Rc) (R180). -/
  | move (ra rc : Reg)
  /-- CMOVE(c, Rc) (R181). -/
  | cmove (c : Int) (rc : Reg)
  /-- PUSH(Ra) (R182). -/
  | push (ra : Reg)
  /-- POP(Rc) (R183). -/
  | pop (rc : Reg)
  /-- ALLOCATE(k) (R184). -/
  | allocate (k : Nat)
  /-- DEALLOCATE(k) (R185). -/
  | deallocate (k : Nat)
deriving DecidableEq, Repr

/-- The instructions a macro written at address `at_` stands for; none where the assembler cannot encode it (R170 to
R185). -/
def expand (at_ : Word) : Macro → Option (List Instr)
  | .beq ra label => (labelLiteral at_ label).map fun l => [.beq ra l 31]
  | .bf ra label => (labelLiteral at_ label).map fun l => [.beq ra l 31]
  | .bne ra label => (labelLiteral at_ label).map fun l => [.bne ra l 31]
  | .bt ra label => (labelLiteral at_ label).map fun l => [.bne ra l 31]
  | .brLinked label rc => (labelLiteral at_ label).map fun l => [.beq 31 l rc]
  | .br label => (labelLiteral at_ label).map fun l => [.beq 31 l 31]
  | .jmp ra => some [.jmp ra 31]
  | .ld label rc => (addressLiteral label).map fun l => [.ld 31 l rc]
  | .st rc label => (addressLiteral label).map fun l => [.st rc l 31]
  | .move ra rc => some [.add ra 31 rc]
  | .cmove c rc => (valueLiteral c).map fun l => [.addc 31 l rc]
  | .push ra => some [.addc sp 4 sp, .st ra (BitVec.ofInt 16 (-4)) sp]
  | .pop rc => some [.ld sp (BitVec.ofInt 16 (-4)) rc, .subc sp 4 sp]
  | .allocate k => (slotsLiteral k).map fun l => [.addc sp l sp]
  | .deallocate k => (slotsLiteral k).map fun l => [.subc sp l sp]

end Sys2Proof.Machine
end

