-- ==== Sys2Proof/Safety.lean ====
section
/-! DEFINITION. The terms in which claims are made: the end of a run, a safe run, the invariant of the machine, and what
an instruction changes and leaves unchanged. -/

namespace Sys2Proof.Machine

/-! ### Runs -/

/-- The branch to itself, `BEQ(R31, -1, R31)` (70_reset_and_hazards.md R270). -/
def selfBranch : Word := 0x77FFFFFF

/-- `END_OF_RUN` in the form this model names, form 2 of R270: the instruction at `pc` is the unconditional branch to
itself and no interrupt is taken. A predicate of the host's: the machine does not stop there (log entry 25). -/
def endOfRun (s : State) : Bool :=
  !interruptTaken s && match fetch s with
    | .next iw => iw == selfBranch
    | _ => false

/-- `END_OF_RUN` in the other form R270 offers: `pc` is at a given address. -/
def endOfRunAt (haltAddr : Word) (s : State) : Bool := s.pc == haltAddr

/-- `k` steps from `s`, stopping at the first fault or refusal. -/
def run : Nat → State → Result
  | 0, s => .next s
  | k + 1, s => andThen (step s) (run k)

/-- A run of `k` steps that meets no fault and no refusal (93_implementation_defined.md section 1: a run must show that
it meets no refuse). -/
def safeRun (k : Nat) (s : State) : Prop := ∃ t, run k s = .next t

/-! ### The invariant -/

/-- Memory is in canonical form, `pc` is a multiple of 4 (10_state.md R27) and so are the vectors (R228). -/
abbrev State.Inv (s : State) : Prop :=
  s.mem.wf ∧ s.pc.toNat % 4 = 0 ∧ s.cfg.wellFormed = true

/-! ### What changes and what does not -/

/-- Every byte of memory reads as before. -/
def SameMemory (s t : State) : Prop := ∀ a, t.mem.read a = s.mem.read a

/-- Every register reads as before. -/
def SameRegs (s t : State) : Prop := ∀ r, t.reg r = s.reg r

/-- Register `rc` reads `v`, unless it is R31, which reads 0; every other register reads as before (10_state.md R22). -/
def RegWritten (s t : State) (rc : Reg) (v : Word) : Prop :=
  ∀ r, t.reg r = if r = 31 then 0 else if r = rc then v else s.reg r

/-- The fields that are the model's own, and the interrupt samples and the parameters, are as before. -/
def SameModelFields (s t : State) : Prop := t.irq = s.irq ∧ t.cfg = s.cfg

/-- All an instruction does that writes `v` into `rc` and goes on at `next_`: mode, memory and every other register as
before. -/
def WritesOnly (s t : State) (rc : Reg) (v next_ : Word) : Prop :=
  RegWritten s t rc v ∧ t.pc = next_ ∧ t.mode = s.mode ∧ SameMemory s t ∧ SameModelFields s t

/-- All a trap entry at the instruction at `s.pc` does that goes to `vector` (60_exceptions.md R224, R232): R30 holds
`pc + 4`, the mode is supervisor, memory and every other register as before. -/
def TrapEntered (s t : State) (vector : Word) : Prop :=
  RegWritten s t xp (s.pc + 4) ∧ t.pc = vector ∧ t.mode = .supervisor ∧ SameMemory s t ∧ SameModelFields s t

/-- The access with effective address `ea` is not refused: it is aligned, or `MISALIGNED_DATA` lets its two low bits be
ignored (20_memory.md R42). -/
def DataAligned (s : State) (ea : Word) : Prop :=
  ea.toNat % 4 = 0 ∨ s.cfg.misalignedData = .maskLow2

/-- The address at which that access is made: the effective address with its two low bits 0 (20_memory.md R42). -/
def wordAddress (ea : Word) : Word := BitVec.ofNat 32 (ea.toNat / 4 * 4)

/-- The access with effective address `ea` completes: R42 lets it, and there is memory (R47). -/
def Accessible (s : State) (ea : Word) : Prop :=
  DataAligned s ea ∧ memValid s.cfg (wordAddress ea) = true

/-- The step from `s` executes a privileged instruction of the platform's own, of which the spec states no effect
(43_privileged.md R160): opcode 0x00 in supervisor mode where PRIV_EXEC is a step function. -/
def RunsPlatformPrivileged (s : State) : Prop :=
  interruptTaken s = false ∧ s.mode = .supervisor ∧ s.cfg.privExec = .platform ∧
    ∃ w, fetch s = .next w ∧ opcodeField w = 0x00#6

/-- A division has a result (40_operate.md R106): DIV_CORNER is a total function, or the operands are off its two
corners. -/
def DivisionHasResult (c : Config) (a b : Int) : Prop :=
  c.divCorner = .total ∨ (b ≠ 0 ∧ ¬ (a = -2 ^ 31 ∧ b = -1))

/-- The signed quotient rounded toward zero (40_operate.md R106). -/
def IsQuotient (a b q : Int) : Prop :=
  q.natAbs = a.natAbs / b.natAbs ∧ (q < 0 ↔ ((a < 0) ≠ (b < 0)) ∧ q ≠ 0)

/-- What R106 says of one division, given the state, the destination, the operands read as signed and the outcome: it
completes where it has a result, which off the corners is the quotient; else it is refused by the name of its corner. -/
def DivisionOutcome (s : State) (rc : Reg) (a b : Int) (outcome : Result) : Prop :=
  (DivisionHasResult s.cfg a b → ∃ t r, outcome = .next t ∧ WritesOnly s t rc r (s.pc + 4) ∧
    (b ≠ 0 → ¬ (a = -2 ^ 31 ∧ b = -1) → IsQuotient a b r.toInt)) ∧
  (s.cfg.divCorner = .refuse → b = 0 → outcome = .refused .divisionByZero) ∧
  (s.cfg.divCorner = .refuse → a = -2 ^ 31 → b = -1 → outcome = .refused .quotientOverflow)

/-! ### Rules of the operate class -/

/-- What the rule of a register-form instruction says (40_operate.md R100): every word with the opcode decodes to it,
with its fields where R61 has them and bits 10:0 ignored; and where the implementation has it, it completes, writes
into `rc` alone a value that stands to the operands' old values as `rel` says, and goes on at `pc + 4`. -/
def RegisterForm (opc : BitVec 6) (mk : Reg → Reg → Reg → Instr) (rel : Word → Word → Word → Prop) : Prop :=
  (∀ w, opcodeField w = opc → decode w = .ok (mk (raField w) (rbField w) (rcField w))) ∧
  ∀ ra rb rc s, (mk ra rb rc).wellFormed s.cfg = true →
    ∃ t r, exec (mk ra rb rc) s = .next t ∧ WritesOnly s t rc r (s.pc + 4) ∧ rel (s.reg ra) (s.reg rb) r

/-- What the rule of a literal-form instruction says (41_operate_const.md R120), with the fields of R62. -/
def LiteralForm (opc : BitVec 6) (mk : Reg → Lit → Reg → Instr) (rel : Word → Lit → Word → Prop) : Prop :=
  (∀ w, opcodeField w = opc → decode w = .ok (mk (raField w) (litField w) (rcField w))) ∧
  ∀ ra lit rc s, (mk ra lit rc).wellFormed s.cfg = true →
    ∃ t r, exec (mk ra lit rc) s = .next t ∧ WritesOnly s t rc r (s.pc + 4) ∧ rel (s.reg ra) lit r

/-- Bit `i` of `sext_32(literal)`: the literal's bit, or a copy of its bit 15 (30_encoding.md R69). -/
def litBit (lit : Lit) (i : Nat) : Bool := if i < 16 then lit.getLsbD i else lit.getLsbD 15

/-- The example of a register-form rule: its word, and what it leaves in R3 when R1 and R2 hold the given values. -/
def ExampleR1R2R3 (i : Instr) (word a b r : Word) : Prop :=
  encode i = word ∧ ∀ s, s.reg 1 = a → s.reg 2 = b → ∃ t, exec i s = .next t ∧ t.reg 3 = r

/-- The example of a literal-form rule: what it leaves in R2 when R1 holds the given value. -/
def ExampleR1R2 (i : Instr) (a r : Word) : Prop :=
  ∀ s, s.reg 1 = a → ∃ t, exec i s = .next t ∧ t.reg 2 = r

/-- The 31 unassigned opcodes, as R72 lists them. -/
def unassignedOpcodes : List (BitVec 6) :=
  [0x01#6, 0x02#6, 0x03#6, 0x04#6, 0x05#6, 0x06#6, 0x07#6, 0x08#6, 0x09#6, 0x0A#6, 0x0B#6, 0x0C#6, 0x0D#6, 0x0E#6,
    0x0F#6, 0x10#6, 0x11#6, 0x12#6, 0x13#6, 0x14#6, 0x15#6, 0x16#6, 0x17#6, 0x1A#6, 0x1C#6, 0x27#6, 0x2B#6, 0x2F#6,
    0x37#6, 0x3B#6, 0x3F#6]

/-- The word memory holds at an aligned address, in the machine's byte order (20_memory.md R40, R45). -/
def wordAt (s : State) (a : Word) : Word := s.mem.readWord s.cfg.byteOrder a.toNat

end Sys2Proof.Machine
end

