-- ==== Sys2Proof/Certificates/Slice0/Obligations.lean ====
section
/-! DEFINITION. The statements for the provers, from the numbered rules of spec/. A statement that rests on one of the
spec's own decisions (D<n>) or on a choice of the model (log entry <n>) says so in its docstring. -/

open Sys2Proof Sys2Proof.Machine

/-! ### Encoding -/

/-- Decode and encode agree: the four bytes of an instruction's word, in either byte order and with anything after them,
decode to that instruction (R61 to R67, R82). The fill of unused bits is the spec's decision D7. -/
def Obligations.DecodeInvertsEncode : Prop :=
  ∀ (o : ByteOrder) (i : Instr) (rest : List Byte),
    decodeBytes o ((List.range 4).map (byteOfWord o (encode i)) ++ rest) = .ok (i, rest)

/-- The other direction: a word as the assembler writes it is what its instruction encodes to, and every encoded
instruction is such a word (R71, R82; D7). -/
def Obligations.EncodeInvertsDecodeOnCanonicalWords : Prop :=
  (∀ w i, canonicalWord w = true → decode w = .ok i → encode i = w) ∧ ∀ i, canonicalWord (encode i) = true

/-- The encoder's words as the sums of shifted fields that R82 writes (D7 for the zero fill). -/
def Obligations.EncodedWordIsSumOfShiftedFields : Prop :=
  (∀ (o : BitVec 6) (ra rb rc : Reg), (encOp o ra rb rc).toNat =
    o.toNat * 2 ^ 26 + rc.val * 2 ^ 21 + ra.val * 2 ^ 16 + rb.val * 2 ^ 11) ∧
  ∀ (o : BitVec 6) (ra : Reg) (lit : Lit) (rc : Reg), (encLit o ra lit rc).toNat =
    o.toNat * 2 ^ 26 + rc.val * 2 ^ 21 + ra.val * 2 ^ 16 + lit.toNat

/-- Bits without a use are ignored: two words that agree on the other bits decode alike (R71, decision D7). Bits 10:0
of the register format, bits 15:0 of JMP, bits 20:16 of LDR. -/
def Obligations.UnusedBitsAreIgnored : Prop :=
  (∀ w w' : Word, w.extractLsb' 30 2 = 0b10#2 → w.extractLsb' 11 21 = w'.extractLsb' 11 21 → decode w = decode w') ∧
  (∀ w w' : Word, opcodeField w = 0x1B#6 → w.extractLsb' 16 16 = w'.extractLsb' 16 16 → decode w = decode w') ∧
  ∀ w w' : Word, opcodeField w = 0x1F#6 → w.extractLsb' 21 11 = w'.extractLsb' 21 11 →
    w.extractLsb' 0 16 = w'.extractLsb' 0 16 → decode w = decode w'

/-- Every one of the 64 opcodes falls under exactly one class: the 31 of R72 decode to no instruction, every other one
decodes to an instruction of that opcode (R66, R67, R72). -/
def Obligations.EveryOpcodeIsAssignedOrRejected : Prop :=
  unassignedOpcodes.length = 31 ∧ unassignedOpcodes.Nodup ∧
  (∀ w, opcodeField w ∈ unassignedOpcodes → decode w = .error (.unassignedOpcode (opcodeField w))) ∧
  ∀ w, opcodeField w ∉ unassignedOpcodes → ∃ i, decode w = .ok i ∧ i.opcode = opcodeField w

/-- Words of 95_test_vectors.md section 2.1, one or more of each format, decode to the instructions they stand for. -/
def Obligations.VectorWordsDecode : Prop :=
  decode 0x80611000 = .ok (.add 1 2 3) ∧ decode 0x8D8A5800 = .ok (.div 10 11 12) ∧
  decode 0xB9274000 = .ok (.sra 7 8 9) ∧ decode 0xC3BD0004 = .ok (.addc sp 4 sp) ∧
  decode 0xC883FFFE = .ok (.mulc 3 0xFFFE 4) ∧ decode 0x6041FFFC = .ok (.ld 1 0xFFFC 2) ∧
  decode 0x64410008 = .ok (.st 2 8 1) ∧ decode 0x6FFC0000 = .ok (.jmp lp 31) ∧
  decode 0x7BE1FFFE = .ok (.bne 1 0xFFFE 31) ∧ decode 0x7CBF0002 = .ok (.ldr 2 5) ∧
  decode 0x00000000 = .ok (.priv 0) ∧ decode 0x04000000 = .error (.unassignedOpcode 1)

/-- The assembler's literal takes a branch or LDR to the label, and a label has one exactly when some literal reaches
it (R70, R78; the inverse formula is the spec's decision D24, its wrap log entry 26). -/
def Obligations.LabelLiteralReachesLabel : Prop :=
  ∀ (s : State) (label : Word),
    (∀ l, labelLiteral s.pc label = some l → relativeAddress s l = label) ∧
    ((labelLiteral s.pc label).isSome = true ↔ ∃ l, relativeAddress s l = label)

/-! ### State -/

/-- R31 reads 0 and discards writes; a write to any other register is what it reads next, and leaves the rest (R22). -/
def Obligations.RegisterThirtyOneIsZero : Prop :=
  ∀ s : State, s.reg 31 = 0 ∧ (∀ v, s.setReg 31 v = s) ∧
    ∀ (r : Reg) (v : Word), r ≠ 31 → (s.setReg r v).reg r = v ∧ ∀ q, q ≠ r → (s.setReg r v).reg q = s.reg q

/-- Reset, for any parameters: `pc` at VEC_RESET, supervisor mode, and no interrupt is taken there whatever the input
(R35, R260; decisions D17 to D19). Nothing is said of the registers, whose values are the model's (log entry 1). -/
def Obligations.ResetStartsInSupervisorAtVector : Prop :=
  ∀ (c : Config) (irq : IrqInput), (State.resetWith c).pc = c.vecReset ∧ (State.resetWith c).mode = .supervisor ∧
    (c.irqInSupervisor = false → interruptTaken { State.resetWith c with irq := irq } = false)

/-- The invariant holds at reset for any well-formed parameters, the model's own among them (R27, R228; log entries
2 and 3 for the values the model chose). -/
def Obligations.InvariantHoldsAtReset : Prop :=
  State.reset.Inv ∧ ∀ c : Config, c.wellFormed = true → (State.resetWith c).Inv

/-! ### Operate class -/

/-- ADD and ADDC: the sum modulo 2^32, the literal read as signed (R103, R122; the wrap is decision D5). -/
def Obligations.AddWraps : Prop :=
  RegisterForm 0x20#6 .add (fun a b r => r.toNat = (a.toNat + b.toNat) % 2 ^ 32) ∧
  LiteralForm 0x30#6 .addc (fun a lit r => r = BitVec.ofInt 32 (a.toInt + lit.toInt))

/-- SUB and SUBC: the left operand minus the right one, modulo 2^32 (R104, R123; D5). -/
def Obligations.SubWraps : Prop :=
  RegisterForm 0x21#6 .sub (fun a b r => (r.toNat : Int) = ((a.toNat : Int) - b.toNat) % 2 ^ 32) ∧
  LiteralForm 0x31#6 .subc (fun a lit r => r = BitVec.ofInt 32 (a.toInt - lit.toInt))

/-- MUL and MULC, where present: the low 32 bits of the product, the same for the unsigned and the signed reading of
the operands (R105, R124; decision D11). -/
def Obligations.MulKeepsLowWord : Prop :=
  RegisterForm 0x22#6 .mul (fun a b r =>
    r.toNat = a.toNat * b.toNat % 2 ^ 32 ∧ r = BitVec.ofInt 32 (a.toInt * b.toInt)) ∧
  LiteralForm 0x32#6 .mulc (fun a lit r => r = BitVec.ofInt 32 (a.toInt * lit.toInt))

/-- DIV and DIVC, where present: where the division has a result they complete, and off the two corners the magnitude is
`floor(|a| / |b|)` and the sign is negative exactly when the operands' signs differ and the magnitude is not zero; of the
value on the corners nothing is said. Where DIV_CORNER is refuse a corner is refused by its name (R106, R125; decision
D12, log entries 9 and 23). -/
def Obligations.DivTruncatesTowardZero : Prop :=
  (∀ w, opcodeField w = 0x23#6 → decode w = .ok (.div (raField w) (rbField w) (rcField w))) ∧
  (∀ w, opcodeField w = 0x33#6 → decode w = .ok (.divc (raField w) (litField w) (rcField w))) ∧
  (∀ ra rb rc s, (Instr.div ra rb rc).wellFormed s.cfg = true →
    DivisionOutcome s rc (s.reg ra).toInt (s.reg rb).toInt (exec (.div ra rb rc) s)) ∧
  ∀ ra lit rc s, (Instr.divc ra lit rc).wellFormed s.cfg = true →
    DivisionOutcome s rc (s.reg ra).toInt lit.toInt (exec (.divc ra lit rc) s)

/-- AND: bit by bit; with R31 it gives 0, with itself it copies; the rule's example (R107). -/
def Obligations.AndIsBitwise : Prop :=
  RegisterForm 0x28#6 .and (fun a b r =>
    (∀ i < 32, r.getLsbD i = (a.getLsbD i && b.getLsbD i)) ∧ (b = 0 → r = 0) ∧ (a = b → r = a)) ∧
  ExampleR1R2R3 (.and 1 2 3) 0xA0611000 0xF0F0F0F0 0xFF00FF00 0xF000F000

/-- OR: bit by bit; with R31 it copies; the rule's example (R108). -/
def Obligations.OrIsBitwise : Prop :=
  RegisterForm 0x29#6 .or (fun a b r =>
    (∀ i < 32, r.getLsbD i = (a.getLsbD i || b.getLsbD i)) ∧ (b = 0 → r = a)) ∧
  ExampleR1R2R3 (.or 1 2 3) 0xA4611000 0xF0F0F0F0 0xFF00FF00 0xFFF0FFF0

/-- XOR: bit by bit; with itself it gives 0; the rule's example (R109). -/
def Obligations.XorIsBitwise : Prop :=
  RegisterForm 0x2A#6 .xor (fun a b r =>
    (∀ i < 32, r.getLsbD i = (a.getLsbD i != b.getLsbD i)) ∧ (a = b → r = 0)) ∧
  ExampleR1R2R3 (.xor 1 2 3) 0xA8611000 0xF0F0F0F0 0xFF00FF00 0x0FF00FF0

/-- ANDC: bit by bit with the sign-extended literal; what a literal with bit 15 clear or set keeps; the rule's example
(R126). -/
def Obligations.AndcIsBitwise : Prop :=
  LiteralForm 0x38#6 .andc (fun a lit r =>
    (∀ i < 32, r.getLsbD i = (a.getLsbD i && litBit lit i)) ∧
    (lit.getLsbD 15 = false → ∀ i ≥ 15, r.getLsbD i = false) ∧
    (lit.getLsbD 15 = true → ∀ i ≥ 16, r.getLsbD i = a.getLsbD i)) ∧
  ExampleR1R2 (.andc 1 0xFF00 2) 0x12345678 0x12345600

/-- ORC: bit by bit with the sign-extended literal; a literal with bit 15 set sets bits 31:16; the rule's example
(R127). -/
def Obligations.OrcIsBitwise : Prop :=
  LiteralForm 0x39#6 .orc (fun a lit r =>
    (∀ i < 32, r.getLsbD i = (a.getLsbD i || litBit lit i)) ∧
    (lit.getLsbD 15 = true → ∀ i, 16 ≤ i → i < 32 → r.getLsbD i = true)) ∧
  ExampleR1R2 (.orc 1 0x00FF 2) 0x12345678 0x123456FF

/-- XORC: bit by bit with the sign-extended literal; with -1 it complements; the rule's example (R128). -/
def Obligations.XorcIsBitwise : Prop :=
  LiteralForm 0x3A#6 .xorc (fun a lit r =>
    (∀ i < 32, r.getLsbD i = (a.getLsbD i != litBit lit i)) ∧ (lit = 0xFFFF → r = ~~~a)) ∧
  encode (.xorc 1 0xFFFF 1) = 0xE821FFFF ∧
  ∀ s : State, s.reg 1 = 0x12345678 → ∃ t, exec (.xorc 1 0xFFFF 1) s = .next t ∧ t.reg 1 = 0xEDCBA987

/-- CMPEQ: 1 for equal operands, 0 for others; the rule's examples (R110). -/
def Obligations.CmpeqGivesOneOrZero : Prop :=
  RegisterForm 0x24#6 .cmpeq (fun a b r => r = if a = b then 1 else 0) ∧
  ExampleR1R2R3 (.cmpeq 1 2 3) 0x90611000 5 5 1 ∧ ExampleR1R2R3 (.cmpeq 1 2 3) 0x90611000 5 6 0

/-- CMPEQC: against the extended literal; the rule's corner case and example (R129). -/
def Obligations.CmpeqcGivesOneOrZero : Prop :=
  LiteralForm 0x34#6 .cmpeqc (fun a lit r => (∀ i < 32, a.getLsbD i = litBit lit i) ∧ r = 1 ∨
    (∃ i < 32, a.getLsbD i ≠ litBit lit i) ∧ r = 0) ∧
  ExampleR1R2 (.cmpeqc 1 0xFFFF 2) 0xFFFFFFFF 1 ∧ ExampleR1R2 (.cmpeqc 1 0xFFFF 2) 0x0000FFFF 0

/-- CMPLT and CMPLTC: the signed order (R111, R130; decision D10). -/
def Obligations.CmpltIsSigned : Prop :=
  RegisterForm 0x25#6 .cmplt (fun a b r => r = if a.toInt < b.toInt then 1 else 0) ∧
  LiteralForm 0x35#6 .cmpltc (fun a lit r => r = if a.toInt < lit.toInt then 1 else 0)

/-- CMPLE and CMPLEC: the signed order, or equal (R112, R131; D10). -/
def Obligations.CmpleIsSignedOrEqual : Prop :=
  RegisterForm 0x26#6 .cmple (fun a b r => r = if a.toInt < b.toInt ∨ a = b then 1 else 0) ∧
  LiteralForm 0x36#6 .cmplec (fun a lit r => r = if a.toInt ≤ lit.toInt then 1 else 0)

/-- SHL and SHLC: multiplication by 2^n modulo 2^32, n the low 5 bits of the second operand (R113, R132; decision
D13). -/
def Obligations.ShlMultipliesByPowerOfTwo : Prop :=
  RegisterForm 0x2C#6 .shl (fun a b r => r.toNat = a.toNat * 2 ^ (b.toNat % 32) % 2 ^ 32) ∧
  LiteralForm 0x3C#6 .shlc (fun a lit r => r.toNat = a.toNat * 2 ^ (lit.toNat % 32) % 2 ^ 32)

/-- SHR and SHRC: unsigned division by 2^n (R114, R133; D13). -/
def Obligations.ShrDividesUnsigned : Prop :=
  RegisterForm 0x2D#6 .shr (fun a b r => r.toNat = a.toNat / 2 ^ (b.toNat % 32)) ∧
  LiteralForm 0x3D#6 .shrc (fun a lit r => r.toNat = a.toNat / 2 ^ (lit.toNat % 32))

/-- SRA and SRAC: signed division by 2^n rounded toward minus infinity (R115, R134; D13). -/
def Obligations.SraDividesTowardMinusInfinity : Prop :=
  RegisterForm 0x2E#6 .sra (fun a b r => r.toInt = a.toInt.fdiv (2 ^ (b.toNat % 32))) ∧
  LiteralForm 0x3E#6 .srac (fun a lit r => r.toInt = a.toInt.fdiv (2 ^ (lit.toNat % 32)))

/-! ### Loads, store, jump and branches -/

/-- The two addressing modes as exact sums narrowed to 32 bits (R69, R70, R146). -/
def Obligations.AddressesAreExactSumsModuloTwoToThirtyTwo : Prop :=
  ∀ (s : State) (ra : Reg) (lit : Lit),
    baseAddress s ra lit = BitVec.ofInt 32 ((s.reg ra).toNat + lit.toInt) ∧
    relativeAddress s lit = BitVec.ofInt 32 (s.pc.toNat + 4 + 4 * lit.toInt)

/-- LD: the encoding, the address, the word loaded where the access completes, the two ways it stops, and the rule's
example (R140). The access at the masked address, the refusal by name and the fault are R42 and R47 (decisions D3 and
D21, log entries 7, 12 and 23). -/
def Obligations.LdLoadsWord : Prop :=
  (∀ w, opcodeField w = 0x18#6 → decode w = .ok (.ld (raField w) (litField w) (rcField w))) ∧
  (∀ (ra : Reg) (lit : Lit) (s : State),
    baseAddress s ra lit = BitVec.ofInt 32 ((s.reg ra).toNat + lit.toInt)) ∧
  (∀ (ra : Reg) (lit : Lit) (rc : Reg) (s : State), Accessible s (baseAddress s ra lit) →
    ∃ t, exec (.ld ra lit rc) s = .next t ∧
      WritesOnly s t rc (wordAt s (wordAddress (baseAddress s ra lit))) (s.pc + 4)) ∧
  (∀ (ra : Reg) (lit : Lit) (rc : Reg) (s : State),
    (¬ DataAligned s (baseAddress s ra lit) →
      exec (.ld ra lit rc) s = .refused (.misalignedData (baseAddress s ra lit))) ∧
    (DataAligned s (baseAddress s ra lit) → memValid s.cfg (wordAddress (baseAddress s ra lit)) = false →
      exec (.ld ra lit rc) s = .fault (.noMemory (wordAddress (baseAddress s ra lit))))) ∧
  encode (.ld sp 0xFFFC 2) = 0x605DFFFC ∧
  ∀ s : State, s.reg sp = 0x1004 → memValid s.cfg 0x1000 = true → wordAt s 0x1000 = 0xCAFEF00D →
    ∃ t, exec (.ld sp 0xFFFC 2) s = .next t ∧ t.reg 2 = 0xCAFEF00D

/-- ST: the encoding, the four bytes written and no other, no register written, the rule's example (R141; memory in
canonical form). The access at a masked address is R42 (decision D3, log entry 7). -/
def Obligations.StStoresWord : Prop :=
  (∀ w, opcodeField w = 0x19#6 → decode w = .ok (.st (rcField w) (litField w) (raField w))) ∧
  (∀ (rc : Reg) (lit : Lit) (ra : Reg) (s : State), s.mem.wf → Accessible s (baseAddress s ra lit) →
    ∃ t, exec (.st rc lit ra) s = .next t ∧ SameRegs s t ∧ t.pc = s.pc + 4 ∧ t.mode = s.mode ∧ SameModelFields s t ∧
      wordAt t (wordAddress (baseAddress s ra lit)) = s.reg rc ∧
      ∀ a, a < (wordAddress (baseAddress s ra lit)).toNat ∨ (wordAddress (baseAddress s ra lit)).toNat + 4 ≤ a →
        t.mem.read a = s.mem.read a) ∧
  encode (.st 1 0xFFFC sp) = 0x643DFFFC ∧
  ∀ s : State, s.mem.wf → s.reg sp = 0x1004 → s.reg 1 = 7 → memValid s.cfg 0x1000 = true →
    ∃ t, exec (.st 1 0xFFFC sp) s = .next t ∧ wordAt t 0x1000 = 7

/-- LDR: the encoding with Ra ignored, the word loaded relative to `pc`, an address that is a multiple of 4 whenever
`pc` is, the rule's example (R145; the ignored field and the fill are decision D7; a misaligned `pc` is log
entry 27). -/
def Obligations.LdrLoadsRelative : Prop :=
  (∀ w, opcodeField w = 0x1F#6 → decode w = .ok (.ldr (litField w) (rcField w))) ∧
  (∀ (lit : Lit) (s : State), s.pc.toNat % 4 = 0 → (relativeAddress s lit).toNat % 4 = 0) ∧
  (∀ (lit : Lit) (rc : Reg) (s : State), Accessible s (relativeAddress s lit) →
    ∃ t, exec (.ldr lit rc) s = .next t ∧
      WritesOnly s t rc (wordAt s (wordAddress (relativeAddress s lit))) (s.pc + 4)) ∧
  encode (.ldr 2 5) = 0x7CBF0002 ∧
  ∀ s : State, s.pc = 0x100 → relativeAddress s 2 = 0x10C

/-- Where ST and LDR do not complete: a misaligned address is refused by name where MISALIGNED_DATA is refuse, and an
address without memory faults (R42, R47; decisions D3 and D21, log entries 7, 12 and 23). -/
def Obligations.InaccessibleWordStops : Prop :=
  ∀ (ra rc : Reg) (lit : Lit) (s : State),
    (¬ DataAligned s (baseAddress s ra lit) →
      exec (.st rc lit ra) s = .refused (.misalignedData (baseAddress s ra lit))) ∧
    (DataAligned s (baseAddress s ra lit) → memValid s.cfg (wordAddress (baseAddress s ra lit)) = false →
      exec (.st rc lit ra) s = .fault (.noMemory (wordAddress (baseAddress s ra lit)))) ∧
    (s.pc.toNat % 4 = 0 → memValid s.cfg (relativeAddress s lit) = false →
      exec (.ldr lit rc) s = .fault (.noMemory (relativeAddress s lit)))

/-- JMP: the encoding with the literal ignored, the link, the old value of Ra as target, the mode by JMP_MODE for the
two functions the spec names (R142, R236; decisions D4, D6, D7, D15, log entries 8 and 10). -/
def Obligations.JmpLinksAndJumps : Prop :=
  (∀ w, opcodeField w = 0x1B#6 → decode w = .ok (.jmp (raField w) (rcField w))) ∧
  ∀ (ra rc : Reg) (s : State), (s.reg ra).toNat % 4 = 0 ∨ s.cfg.misalignedPc = .maskLow2 →
    ∃ t, exec (.jmp ra rc) s = .next t ∧ RegWritten s t rc (s.pc + 4) ∧ t.pc = wordAddress (s.reg ra) ∧
      SameMemory s t ∧ SameModelFields s t ∧
      (s.cfg.jmpMode = .bit31 →
        (t.mode = .supervisor ↔ s.mode = .supervisor ∧ (s.reg ra).getLsbD 31 = true)) ∧
      (s.cfg.jmpMode = .keep → t.mode = s.mode)

/-- A JMP to a target that is no multiple of 4 is refused by name where MISALIGNED_PC is refuse (R43; decision D4). -/
def Obligations.MisalignedJumpIsRefused : Prop :=
  ∀ (ra rc : Reg) (s : State), (s.reg ra).toNat % 4 ≠ 0 → s.cfg.misalignedPc = .refuse →
    exec (.jmp ra rc) s = .refused (.misalignedJump (s.reg ra))

/-- BEQ (BF) and BNE (BT): the link on both paths, the old value of Ra tested in all its bits, the target or `pc + 4`
(R143, R144; decision D6). -/
def Obligations.BranchesTestAndLink : Prop :=
  (∀ w, opcodeField w = 0x1D#6 → decode w = .ok (.beq (raField w) (litField w) (rcField w))) ∧
  (∀ w, opcodeField w = 0x1E#6 → decode w = .ok (.bne (raField w) (litField w) (rcField w))) ∧
  ∀ (ra : Reg) (lit : Lit) (rc : Reg) (s : State),
    (∃ t, exec (.beq ra lit rc) s = .next t ∧ WritesOnly s t rc (s.pc + 4)
      (if s.reg ra = 0 then BitVec.ofInt 32 (s.pc.toNat + 4 + 4 * lit.toInt) else s.pc + 4)) ∧
    ∃ t, exec (.bne ra lit rc) s = .next t ∧ WritesOnly s t rc (s.pc + 4)
      (if s.reg ra = 0 then s.pc + 4 else BitVec.ofInt 32 (s.pc.toNat + 4 + 4 * lit.toInt))

/-! ### Privileged, unassigned and optional opcodes -/

/-- PRIV: the encoding; IllegalInstruction in user mode, and in supervisor mode where PRIV_EXEC is the implementation
without privileged instructions; refused by name where it is refuse (R160; decision D16, log entry 11). -/
def Obligations.PrivTrapsOrIsRefused : Prop :=
  (∀ w, opcodeField w = 0x00#6 → decode w = .ok (.priv (restField w))) ∧
  ∀ (rest : BitVec 26) (s : State),
    (s.mode = .user → ∃ t, exec (.priv rest) s = .next t ∧ TrapEntered s t s.cfg.vecIllop) ∧
    (s.mode = .supervisor → s.cfg.privExec = .illegalInstruction →
      ∃ t, exec (.priv rest) s = .next t ∧ TrapEntered s t s.cfg.vecIllop) ∧
    (s.mode = .supervisor → s.cfg.privExec = .refuse →
      exec (.priv rest) s = .refused (.privilegedInstruction rest))

/-- PRIV where PRIV_EXEC is the platform's own step function: in supervisor mode every word with opcode 0x00 completes,
with whatever effect on registers, `pc`, mode and memory; the input and the parameters stay, `pc` is a multiple of 4 and
memory keeps its canonical form (R160, R27; decision D16, log entry 11: nothing is said of the effect itself). -/
def Obligations.PlatformPrivilegedInstructionCompletes : Prop :=
  ∀ (rest : BitVec 26) (s : State), s.mode = .supervisor → s.cfg.privExec = .platform →
    ∃ t, exec (.priv rest) s = .next t ∧ SameModelFields s t ∧ t.pc.toNat % 4 = 0 ∧ (s.mem.wf → t.mem.wf)

/-- A word with an unassigned opcode raises IllegalInstruction in either mode (R161; decision D8). -/
def Obligations.UnassignedOpcodeTraps : Prop :=
  ∀ (s : State), interruptTaken s = false → Accessible s s.pc →
    opcodeField (wordAt s (wordAddress s.pc)) ∈ unassignedOpcodes →
    ∃ t, step s = .next t ∧ TrapEntered s.sampled t s.cfg.vecIllop

/-- A starred opcode the implementation lacks raises IllegalInstruction (R163; decision D9). -/
def Obligations.AbsentOptionalOpcodeTraps : Prop :=
  ∀ (ra rb rc : Reg) (lit : Lit) (s : State), ∀ i ∈ [Instr.mul ra rb rc, .div ra rb rc, .mulc ra lit rc, .divc ra lit rc],
    i.wellFormed s.cfg = false → ∃ t, exec i s = .next t ∧ TrapEntered s t s.cfg.vecIllop

/-! ### The step, traps and the return from them -/

/-- A step runs the decoded instruction: where no interrupt is taken and the word at `pc` decodes to `i`, the step is
`i`'s meaning in the same state less the interrupt sample it used up (R6, R44, R47). That a step uses up a sample is the
model's choice (log entry 5), and a `pc` that is no multiple of 4, which no run reaches, follows R42 (log entry 27). -/
def Obligations.StepRunsDecodedInstruction : Prop :=
  ∀ (s : State) (i : Instr), interruptTaken s = false → Accessible s s.pc →
    decode (wordAt s (wordAddress s.pc)) = .ok i → step s = exec i { s with irq := irqLater s.irq }

/-- A fetch where there is no memory stops the machine (R44, R47; decision D25, log entry 23). -/
def Obligations.FetchWithoutMemoryFaults : Prop :=
  ∀ s : State, interruptTaken s = false → s.pc.toNat % 4 = 0 → memValid s.cfg s.pc = false →
    step s = .fault (.noMemory s.pc)

/-- The interrupt entry: where the sample of irq is high and the mode is user (or IRQ_IN_SUPERVISOR), the step takes the
interrupt, whatever stands at `pc`, even no memory (R231, R232, R234; decisions D14, D18, D23). -/
def Obligations.InterruptIsTakenBeforeFetch : Prop :=
  ∀ s : State, irqNow s.irq = true → s.mode = .user ∨ s.cfg.irqInSupervisor = true →
    ∃ t, step s = .next t ∧ TrapEntered { s with irq := irqLater s.irq } t s.cfg.vecIrq

/-- Supervisor mode is the interrupt mask: under the default IRQ_IN_SUPERVISOR the step does not depend on the sample
of irq, and nothing remembers it (R33, R231; decision D18). -/
def Obligations.SupervisorModeMasksInterrupts : Prop :=
  ∀ (s : State) (b : Bool) (later : IrqInput), s.mode = .supervisor → s.cfg.irqInSupervisor = false →
    step { s with irq := irqThen b later } = step { s with irq := irqThen (!b) later } ∧
    ∀ t, step { s with irq := irqThen b later } = .next t → t.irq = later

/-- The input irq is under no law (R272): any list of samples may come first, before any other input; and some input
repeats any pattern for ever, so irq may stay high. Where it does and interrupts are taken in supervisor mode too, every
step is an interrupt's entry. How an input is held is the model's choice (log entry 5). -/
def Obligations.IrqIsUnderNoLaw : Prop :=
  (∀ (samples : List Bool) (later : IrqInput), ∃ i : IrqInput, irqLater^[samples.length] i = later ∧
    ∀ k (h : k < samples.length), irqNow (irqLater^[k] i) = samples[k]) ∧
  (∀ pattern : List Bool, pattern ≠ [] → ∃ i : IrqInput, ∀ k,
    some (irqNow (irqLater^[k] i)) = pattern[k % pattern.length]?) ∧
  ∀ (k : Nat) (s : State), (∀ n, irqNow (irqLater^[n] s.irq) = true) → s.cfg.irqInSupervisor = true →
    ∃ t, run (k + 1) s = .next t ∧ t.pc = s.cfg.vecIrq ∧ t.mode = .supervisor ∧ SameMemory s t ∧
      ∀ r, r ≠ xp → t.reg r = s.reg r

/-- The return from an illegal instruction: after its entry from user mode, `JMP(XP)` goes on in user mode after the
offending word, with every register but R30 as it was (R226, R237; decisions D14 and D15). -/
def Obligations.JmpXpReturnsPastIllegalWord : Prop :=
  ∀ s : State, s.mode = .user → s.pc.toNat % 4 = 0 → s.cfg.jmpMode = .bit31 → (s.pc + 4).getLsbD 31 = false →
    ∃ t u, raiseIllegal s = .next t ∧ exec (.jmp xp 31) t = .next u ∧
      u.pc = s.pc + 4 ∧ u.mode = .user ∧ RegWritten s u xp (s.pc + 4) ∧ SameMemory s u ∧ SameModelFields s u

/-- The return from an interrupt: `SUBC(XP, 4, XP)` then `JMP(XP)` resumes the interrupted instruction in user mode,
with every register but R30 as it was (R232, R237; decisions D14 and D15). -/
def Obligations.InterruptReturnResumesInstruction : Prop :=
  ∀ s : State, s.mode = .user → s.pc.toNat % 4 = 0 → s.cfg.jmpMode = .bit31 → s.pc.getLsbD 31 = false →
    ∃ t u, exec (.subc xp 4 xp) (takeTrap .interrupt s) = .next t ∧ exec (.jmp xp 31) t = .next u ∧
      u.pc = s.pc ∧ u.mode = .user ∧ RegWritten s u xp s.pc ∧ SameMemory s u ∧ SameModelFields s u

/-! ### Memory -/

/-- A word written is the word read at its address next, and every other word stays (R45, R46; memory in canonical
form). -/
def Obligations.WordReadBackAfterWrite : Prop :=
  ∀ (s : State) (a v : Word), s.mem.wf → a.toNat % 4 = 0 → memValid s.cfg a = true →
    ∃ t, memWrite s a v = .next t ∧ memRead t a = .next v ∧
      (∀ b : Word, b.toNat % 4 = 0 → b ≠ a → memRead t b = memRead s b) ∧
      SameRegs s t ∧ t.pc = s.pc ∧ t.mode = s.mode ∧ SameModelFields s t

/-- Which byte of memory holds which bits of a word written (R40; decision D2: the order is a parameter). -/
def Obligations.ByteOrderPlacesBytes : Prop :=
  ∀ (s : State) (a v : Word) (k : Nat), s.mem.wf → a.toNat % 4 = 0 → memValid s.cfg a = true → k < 4 →
    ∃ t, memWrite s a v = .next t ∧
      (s.cfg.byteOrder = .little → t.mem.read (a.toNat + k) = v.extractLsb' (8 * k) 8) ∧
      (s.cfg.byteOrder = .big → t.mem.read (a.toNat + k) = v.extractLsb' (24 - 8 * k) 8)

/-- A store is seen by the next fetch of its address (R54; decision D20; memory in canonical form). -/
def Obligations.StoreIsSeenByFetch : Prop :=
  ∀ (rc ra : Reg) (lit : Lit) (s t : State), s.mem.wf → exec (.st rc lit ra) s = .next t →
    fetch (t.setPc (wordAddress (baseAddress s ra lit))) = .next (s.reg rc)

/-! ### Macros -/

/-- PUSH: its two words, and their net effect (R182): the word at the old SP holds x[Ra], or the raised SP for PUSH(SP);
SP is raised by 4. -/
def Obligations.PushStoresAndRaises : Prop :=
  (∀ at_, (expand at_ (.push 1)).map (List.map encode) = some [0xC3BD0004, 0x643DFFFC]) ∧
  (∀ at_ ra, expand at_ (.push ra) = some [.addc sp 4 sp, .st ra 0xFFFC sp]) ∧
  ∀ (ra : Reg) (s : State), s.mem.wf → (s.reg sp).toNat % 4 = 0 → memValid s.cfg (s.reg sp) = true →
    ∃ t, andThen (exec (.addc sp 4 sp) s) (exec (.st ra 0xFFFC sp)) = .next t ∧
      RegWritten s t sp (s.reg sp + 4) ∧ t.pc = s.pc + 8 ∧ t.mode = s.mode ∧ SameModelFields s t ∧
      wordAt t (s.reg sp) = (if ra = sp then s.reg sp + 4 else s.reg ra) ∧
      ∀ a, a < (s.reg sp).toNat ∨ (s.reg sp).toNat + 4 ≤ a → t.mem.read a = s.mem.read a

/-- POP: its two words, and their net effect (R183): Rc holds the topmost word and SP is lowered by 4; POP(SP) lowers
what it loaded; POP(R31) only lowers SP. -/
def Obligations.PopLoadsAndLowers : Prop :=
  (∀ at_, (expand at_ (.pop 2)).map (List.map encode) = some [0x605DFFFC, 0xC7BD0004]) ∧
  (∀ at_ rc, expand at_ (.pop rc) = some [.ld sp 0xFFFC rc, .subc sp 4 sp]) ∧
  ∀ (rc : Reg) (s : State), (s.reg sp).toNat % 4 = 0 → memValid s.cfg (s.reg sp - 4) = true →
    ∃ t, andThen (exec (.ld sp 0xFFFC rc) s) (exec (.subc sp 4 sp)) = .next t ∧
      (∀ r, t.reg r = if r = 31 then 0
        else if r = sp then (if rc = sp then wordAt s (s.reg sp - 4) - 4 else s.reg sp - 4)
        else if r = rc then wordAt s (s.reg sp - 4) else s.reg r) ∧
      t.pc = s.pc + 8 ∧ t.mode = s.mode ∧ SameMemory s t ∧ SameModelFields s t

/-! ### The whole machine -/

/-- An invariant every step keeps: memory stays in canonical form, `pc` and the vectors stay multiples of 4 (R27). -/
def Obligations.StepKeepsInvariant : Prop :=
  ∀ s t : State, s.Inv → step s = .next t → t.Inv

/-- Every run keeps it, from any state that has it (R27, R261). -/
def Obligations.RunKeepsInvariant : Prop :=
  ∀ (k : Nat) (s t : State), s.Inv → run k s = .next t → t.Inv

/-- No step writes a parameter, and each uses up one sample of irq (R2, R33; log entries 5 and 6). -/
def Obligations.StepKeepsParameters : Prop :=
  ∀ s t : State, step s = .next t → t.cfg = s.cfg ∧ t.irq = irqLater s.irq

/-- Only ST writes memory: a step after which some byte reads otherwise took no interrupt and ran an ST, and the byte is
one of the four it stores (R46, R207); or it ran a privileged instruction of the platform's own (R160, log entry 11). -/
def Obligations.OnlyStoreWritesMemory : Prop :=
  ∀ (s t : State) (a : Nat), s.mem.wf → step s = .next t → t.mem.read a ≠ s.mem.read a →
    (interruptTaken s = false ∧ ∃ w rc lit ra, fetch s = .next w ∧ decode w = .ok (.st rc lit ra) ∧
      (wordAddress (baseAddress s ra lit)).toNat ≤ a ∧ a < (wordAddress (baseAddress s ra lit)).toNat + 4) ∨
    RunsPlatformPrivileged s

/-- A step writes no register but the Rc of the word it executes, or R30 by a trap entry (R21), unless it runs a
privileged instruction of the platform's own (R160, log entry 11). -/
def Obligations.StepWritesOneRegister : Prop :=
  ∀ (s t : State) (r : Reg), step s = .next t → t.reg r ≠ s.reg r →
    (∃ w, interruptTaken s = false ∧ fetch s = .next w ∧ r = rcField w) ∨
    (r = xp ∧ t.reg xp = s.pc + 4 ∧ t.mode = .supervisor ∧ (t.pc = s.cfg.vecIllop ∨ t.pc = s.cfg.vecIrq)) ∨
    RunsPlatformPrivileged s

/-- What changes the mode: from user to supervisor only a trap entry, from supervisor to user only a JMP, or a privileged
instruction of the platform's own (R28, R236, R240; decisions D14 and D15, log entry 11; a platform's own JMP_MODE is left
out, log entry 10). -/
def Obligations.ModeChangesOnlyByTrapOrJmp : Prop :=
  ∀ s t : State, s.cfg.jmpMode ≠ .platform → step s = .next t →
    (s.mode = .user → t.mode = .supervisor →
      ∃ v, (v = s.cfg.vecIllop ∨ v = s.cfg.vecIrq) ∧ TrapEntered s.sampled t v) ∧
    (s.mode = .supervisor → t.mode = .user →
      (∃ w ra rc, fetch s = .next w ∧ decode w = .ok (.jmp ra rc) ∧ (s.reg ra).getLsbD 31 = false) ∨
        RunsPlatformPrivileged s)

/-- The mode restricts nothing but opcode 0x00: every other instruction does the same to registers, memory and `pc` in
either mode (R49, R240; decision D28). -/
def Obligations.ModeRestrictsOnlyPrivileged : Prop :=
  ∀ (i : Instr) (s : State) (m : Mode), (∀ rest, i ≠ .priv rest) →
    andThen (exec i (s.setMode m)) (fun t => .next (t.setMode .user)) =
      andThen (exec i s) (fun t => .next (t.setMode .user))

/-- The control-signal table drives a datapath that is the same machine: for every value on the wires that do not
matter, a step by the table is the machine's step, in every state but supervisor mode where PRIV_EXEC is refuse or the
platform's own, for which the table has no column (log entry 32); the signals' meanings are the spec's derivations
(R200 to R213; log entry 24). -/
def Obligations.ControlTableIsTheMachine : Prop :=
  ∀ (fill : DontCare) (s : State), s.mode = .user ∨ s.cfg.privExec = .illegalInstruction →
    controlStep fill s = step s

/-- The branch to itself: in a state at the end of a run the step changes nothing but the sample of irq; and in
supervisor mode, where no interrupt is taken, so it stays for every number of steps (R270; decision D22, log entry
25). -/
def Obligations.SelfBranchRepeatsForEver : Prop :=
  (∀ s : State, s.pc.toNat % 4 = 0 → endOfRun s = true → step s = .next s.sampled) ∧
  ∀ (k : Nat) (s : State), s.pc.toNat % 4 = 0 → endOfRun s = true → s.mode = .supervisor →
    s.cfg.irqInSupervisor = false → run k s = .next { s with irq := irqLater^[k] s.irq }
end

