-- ==== Sys2Proof/Laws/Encoding.lean ====
section
/-! SUPPORT. Which field of an encoded word holds what (30_encoding.md R61 to R64, R82). -/

namespace Sys2Proof

/-- A field of a concatenation that lies in its high part. -/
theorem extract_append_high {n m : Nat} (x : BitVec n) (y : BitVec m) (start len : Nat) (h : m ≤ start) :
    (x ++ y).extractLsb' start len = x.extractLsb' (start - m) len := by
  apply BitVec.eq_of_getLsbD_eq
  intro i hi
  simp only [BitVec.getLsbD_extractLsb', BitVec.getLsbD_append, hi, decide_true, Bool.true_and]
  rw [if_neg (by omega)]
  congr 1
  omega

/-- A field of a concatenation that lies in its low part. -/
theorem extract_append_low {n m : Nat} (x : BitVec n) (y : BitVec m) (start len : Nat) (h : start + len ≤ m) :
    (x ++ y).extractLsb' start len = y.extractLsb' start len := by
  apply BitVec.eq_of_getLsbD_eq
  intro i hi
  simp only [BitVec.getLsbD_extractLsb', BitVec.getLsbD_append, hi, decide_true, Bool.true_and]
  rw [if_pos (by omega)]

@[simp] theorem toFin_regBits (r : Reg) : (regBits r).toFin = r := rfl

@[simp] theorem regBits_toFin (b : BitVec 5) : regBits b.toFin = b := rfl

theorem opcodeField_encOp (o : BitVec 6) (ra rb rc : Reg) : opcodeField (encOp o ra rb rc) = o := by
  unfold opcodeField encOp
  rw [extract_append_high _ _ _ _ (by omega), extract_append_high _ _ _ _ (by omega),
    extract_append_high _ _ _ _ (by omega), extract_append_high _ _ _ _ (by omega)]
  exact BitVec.extractLsb'_eq_self

theorem rcField_encOp (o : BitVec 6) (ra rb rc : Reg) : rcField (encOp o ra rb rc) = rc := by
  unfold rcField encOp
  rw [extract_append_high _ _ _ _ (by omega), extract_append_high _ _ _ _ (by omega),
    extract_append_high _ _ _ _ (by omega), extract_append_low _ _ _ _ (by omega)]
  exact congrArg BitVec.toFin (BitVec.extractLsb'_eq_self (x := regBits rc))

theorem raField_encOp (o : BitVec 6) (ra rb rc : Reg) : raField (encOp o ra rb rc) = ra := by
  unfold raField encOp
  rw [extract_append_high _ _ _ _ (by omega), extract_append_high _ _ _ _ (by omega),
    extract_append_low _ _ _ _ (by omega)]
  exact congrArg BitVec.toFin (BitVec.extractLsb'_eq_self (x := regBits ra))

theorem rbField_encOp (o : BitVec 6) (ra rb rc : Reg) : rbField (encOp o ra rb rc) = rb := by
  unfold rbField encOp
  rw [extract_append_high _ _ _ _ (by omega), extract_append_low _ _ _ _ (by omega)]
  exact congrArg BitVec.toFin (BitVec.extractLsb'_eq_self (x := regBits rb))

theorem opcodeField_encLit (o : BitVec 6) (ra : Reg) (lit : Lit) (rc : Reg) :
    opcodeField (encLit o ra lit rc) = o := by
  unfold opcodeField encLit
  rw [extract_append_high _ _ _ _ (by omega), extract_append_high _ _ _ _ (by omega),
    extract_append_high _ _ _ _ (by omega)]
  exact BitVec.extractLsb'_eq_self

theorem rcField_encLit (o : BitVec 6) (ra : Reg) (lit : Lit) (rc : Reg) :
    rcField (encLit o ra lit rc) = rc := by
  unfold rcField encLit
  rw [extract_append_high _ _ _ _ (by omega), extract_append_high _ _ _ _ (by omega),
    extract_append_low _ _ _ _ (by omega)]
  exact congrArg BitVec.toFin (BitVec.extractLsb'_eq_self (x := regBits rc))

theorem raField_encLit (o : BitVec 6) (ra : Reg) (lit : Lit) (rc : Reg) :
    raField (encLit o ra lit rc) = ra := by
  unfold raField encLit
  rw [extract_append_high _ _ _ _ (by omega), extract_append_low _ _ _ _ (by omega)]
  exact congrArg BitVec.toFin (BitVec.extractLsb'_eq_self (x := regBits ra))

theorem litField_encLit (o : BitVec 6) (ra : Reg) (lit : Lit) (rc : Reg) :
    litField (encLit o ra lit rc) = lit := by
  unfold litField encLit
  rw [extract_append_low _ _ _ _ (by omega)]
  exact BitVec.extractLsb'_eq_self

theorem opcodeField_append (o : BitVec 6) (rest : BitVec 26) : opcodeField (o ++ rest) = o := by
  unfold opcodeField
  rw [extract_append_high _ _ _ _ (by omega)]
  exact BitVec.extractLsb'_eq_self

theorem restField_append (o : BitVec 6) (rest : BitVec 26) : restField (o ++ rest) = rest := by
  unfold restField
  rw [extract_append_low _ _ _ _ (by omega)]
  exact BitVec.extractLsb'_eq_self

/-- A word is its opcode and its 26 other bits. -/
theorem opcodeField_append_restField (w : Word) : opcodeField w ++ restField w = w := by
  apply BitVec.eq_of_getLsbD_eq
  intro i hi
  simp only [opcodeField, restField, BitVec.getLsbD_append, BitVec.getLsbD_extractLsb']
  split
  · simp [*]
  · have : i - 26 < 6 := by omega
    simp only [this, decide_true, Bool.true_and]
    congr 1
    omega

/-- A word is its opcode, its two register fields and its literal field (R62, R64). -/
theorem encLit_fields (w : Word) : encLit (opcodeField w) (raField w) (litField w) (rcField w) = w := by
  apply BitVec.eq_of_getLsbD_eq
  intro i hi
  simp only [encLit, opcodeField, raField, litField, rcField, regBits_toFin, BitVec.getLsbD_append,
    BitVec.getLsbD_extractLsb']
  split
  · simp [*]
  · split
    · have h : i - 16 < 5 := by omega
      simp only [h, decide_true, Bool.true_and]
      congr 1
      omega
    · split
      · have h : i - 16 - 5 < 5 := by omega
        simp only [h, decide_true, Bool.true_and]
        congr 1
        omega
      · have h : i - 16 - 5 - 5 < 6 := by omega
        simp only [h, decide_true, Bool.true_and]
        congr 1
        omega

end Sys2Proof
end

