-- ==== Sys2Proof/Laws/Memory.lean ====
section
/-! SUPPORT. The laws of memory: read after write, byte by byte and word by word, and that every write keeps the
canonical form. -/

namespace Sys2Proof.Machine

/-! ### One byte -/

theorem read_cons (a : Nat) (b : Byte) (m : Memory) (x : Nat) (h : m.read a = unlistedByte) :
    (Memory.cons a b m).read x = if x = a then b else m.read x := by
  unfold Memory.cons
  split
  · rename_i hb
    split
    · rename_i hx; rw [hx, h, hb]
    · rfl
  · rfl

/-- An address below every listed one reads as unlisted. -/
theorem read_below (m : Memory) (a : Nat) (h : ∀ c ∈ m, a < c.1) : m.read a = unlistedByte := by
  induction m with
  | nil => rfl
  | cons c m ih =>
    have hc := h c (by simp)
    simp only [Memory.read]
    rw [if_neg (by omega), ih (fun d hd => h d (by simp [hd]))]

/-- Read after write: the byte written, and every other one as before. -/
theorem read_write (m : Memory) (a : Nat) (b : Byte) (x : Nat) (hw : m.wf) :
    (m.write a b).read x = if x = a then b else m.read x := by
  induction m with
  | nil => exact read_cons a b [] x rfl
  | cons c m ih =>
    obtain ⟨a', b'⟩ := c
    obtain ⟨hp, hall⟩ := hw
    rw [List.pairwise_cons] at hp
    have hm : Memory.wf m := ⟨hp.2, fun c hc => hall c (by simp [hc])⟩
    simp only [Memory.write]
    split
    · rename_i hlt
      refine read_cons a b _ x (read_below _ a fun c hc => ?_)
      rcases List.mem_cons.1 hc with rfl | hc
      · exact hlt
      · exact Nat.lt_trans hlt (hp.1 c hc)
    · split
      · rename_i _ heq
        subst heq
        rw [read_cons a b m x (read_below m a hp.1)]
        simp only [Memory.read]
        split <;> rfl
      · rename_i hlt hne
        simp only [Memory.read, ih hm]
        by_cases hx : x = a'
        · rw [if_pos hx, if_pos hx, if_neg (by omega)]
        · rw [if_neg hx, if_neg hx]

theorem cons_wf (a : Nat) (b : Byte) (m : Memory) (hw : m.wf) (ha : a < 2 ^ 32) (hlt : ∀ c ∈ m, a < c.1) :
    (Memory.cons a b m).wf := by
  unfold Memory.cons
  split
  · exact hw
  · rename_i hb
    refine ⟨List.pairwise_cons.2 ⟨hlt, hw.1⟩, fun c hc => ?_⟩
    rcases List.mem_cons.1 hc with rfl | hc
    · exact ⟨ha, hb⟩
    · exact hw.2 c hc

/-- The addresses listed after a write are among those listed before and the one written. -/
theorem mem_write (m : Memory) (a : Nat) (b : Byte) (c : Host.Cell) (h : c ∈ m.write a b) :
    c ∈ m ∨ c = (a, b) := by
  have hcons : ∀ m' : Memory, c ∈ Memory.cons a b m' → c ∈ m' ∨ c = (a, b) := by
    intro m' h
    unfold Memory.cons at h
    split at h
    · exact .inl h
    · rcases List.mem_cons.1 h with h | h
      · exact .inr h
      · exact .inl h
  induction m with
  | nil => exact hcons _ h
  | cons d m ih =>
    obtain ⟨a', b'⟩ := d
    simp only [Memory.write] at h
    split at h
    · exact hcons _ h
    · split at h
      · rcases hcons _ h with h | h
        · exact .inl (by simp [h])
        · exact .inr h
      · rcases List.mem_cons.1 h with h | h
        · exact .inl (by simp [h])
        · rcases ih h with h | h
          · exact .inl (by simp [h])
          · exact .inr h

/-- A write of a byte keeps the canonical form. -/
theorem write_wf (m : Memory) (a : Nat) (b : Byte) (hw : m.wf) (ha : a < 2 ^ 32) : (m.write a b).wf := by
  induction m with
  | nil => exact cons_wf a b [] hw ha (by simp)
  | cons c m ih =>
    obtain ⟨a', b'⟩ := c
    have hw' := hw
    obtain ⟨hp, hall⟩ := hw
    rw [List.pairwise_cons] at hp
    have hm : Memory.wf m := ⟨hp.2, fun c hc => hall c (by simp [hc])⟩
    simp only [Memory.write]
    split
    · rename_i hlt
      refine cons_wf a b _ hw' ha fun c hc => ?_
      rcases List.mem_cons.1 hc with rfl | hc
      · exact hlt
      · exact Nat.lt_trans hlt (hp.1 c hc)
    · split
      · rename_i _ heq
        subst heq
        exact cons_wf a b m hm ha hp.1
      · rename_i hlt hne
        have hi := ih hm
        refine ⟨List.pairwise_cons.2 ⟨fun c hc => ?_, hi.1⟩, fun c hc => ?_⟩
        · rcases mem_write m a b c hc with hc | rfl
          · exact hp.1 c hc
          · show a' < a
            omega
        · rcases List.mem_cons.1 hc with rfl | hc
          · exact hall _ (by simp)
          · exact hi.2 c hc

/-! ### One word -/

/-- A write of a word keeps the canonical form. -/
theorem writeWord_wf (o : ByteOrder) (m : Memory) (a : Nat) (w : Word) (hw : m.wf) (ha : a + 3 < 2 ^ 32) :
    (m.writeWord o a w).wf :=
  write_wf _ _ _ (write_wf _ _ _ (write_wf _ _ _ (write_wf _ _ _ hw (by omega)) (by omega)) (by omega)) (by omega)

/-- Byte by byte, what a write of a word leaves. -/
theorem read_writeWord (o : ByteOrder) (m : Memory) (a : Nat) (w : Word) (x : Nat) (hw : m.wf)
    (ha : a + 3 < 2 ^ 32) :
    (m.writeWord o a w).read x = if a ≤ x ∧ x < a + 4 then byteOfWord o w (x - a) else m.read x := by
  have h0 := write_wf m a (byteOfWord o w 0) hw (by omega)
  have h1 := write_wf _ (a + 1) (byteOfWord o w 1) h0 (by omega)
  have h2 := write_wf _ (a + 2) (byteOfWord o w 2) h1 (by omega)
  unfold Memory.writeWord
  rw [read_write _ _ _ _ h2, read_write _ _ _ _ h1, read_write _ _ _ _ h0, read_write _ _ _ _ hw]
  by_cases e3 : x = a + 3
  · subst e3; simp
  by_cases e2 : x = a + 2
  · subst e2; simp
  by_cases e1 : x = a + 1
  · subst e1; simp
  by_cases e0 : x = a
  · subst e0; simp
  · rw [if_neg e3, if_neg e2, if_neg e1, if_neg e0, if_neg (by omega)]

/-- The bytes of a word, put together again in the same order, are the word (R40). -/
theorem wordOfBytes_byteOfWord (o : ByteOrder) (w : Word) :
    wordOfBytes o (byteOfWord o w 0) (byteOfWord o w 1) (byteOfWord o w 2) (byteOfWord o w 3) = w := by
  cases o <;>
  · simp only [wordOfBytes, byteOfWord]
    ext i hi
    simp only [BitVec.getElem_append, BitVec.getElem_extractLsb']
    repeat' split
    all_goals (rw [← BitVec.getLsbD_eq_getElem]; congr 1; omega)

/-- Read after write: the word written (R45, R46). -/
theorem readWord_writeWord_same (o : ByteOrder) (m : Memory) (a : Nat) (w : Word) (hw : m.wf)
    (ha : a + 3 < 2 ^ 32) : (m.writeWord o a w).readWord o a = w := by
  unfold Memory.readWord
  simp only [read_writeWord o m a w _ hw ha]
  simpa using wordOfBytes_byteOfWord o w

/-- A write of a word leaves every word that shares no byte with it (R46). -/
theorem readWord_writeWord_other (o : ByteOrder) (m : Memory) (a x : Nat) (w : Word) (hw : m.wf)
    (ha : a + 3 < 2 ^ 32) (h : x + 4 ≤ a ∨ a + 4 ≤ x) : (m.writeWord o a w).readWord o x = m.readWord o x := by
  unfold Memory.readWord
  simp only [read_writeWord o m a w _ hw ha]
  repeat rw [if_neg (by omega)]

/-- Memory that lists nothing is in canonical form. -/
theorem nil_wf : Memory.wf [] := ⟨List.Pairwise.nil, by simp⟩

/-- Two memories in canonical form that read alike are the same list. -/
theorem wf_ext (m n : Memory) (hm : m.wf) (hn : n.wf) (h : ∀ a, m.read a = n.read a) : m = n := by
  induction m generalizing n with
  | nil =>
    cases n with
    | nil => rfl
    | cons c n =>
      have := h c.1
      simp only [Memory.read] at this
      exact absurd this.symm (hn.2 c (by simp)).2
  | cons c m ih =>
    obtain ⟨a, b⟩ := c
    have hmp := List.pairwise_cons.1 hm.1
    cases n with
    | nil =>
      have := h a
      simp only [Memory.read, if_true] at this
      exact absurd this (hm.2 (a, b) (by simp)).2
    | cons d n =>
      obtain ⟨a', b'⟩ := d
      have hnp := List.pairwise_cons.1 hn.1
      have hb := (hm.2 (a, b) (by simp)).2
      have hb' := (hn.2 (a', b') (by simp)).2
      have below : ∀ (l : Memory) (x y : Nat), (∀ c ∈ l, x < c.1) → y ≤ x → l.read y = unlistedByte :=
        fun l x y hl hy => read_below l y fun c hc => by have := hl c hc; omega
      have ha : a = a' := by
        rcases Nat.lt_trichotomy a a' with hlt | heq | hgt
        · have := h a
          simp only [Memory.read, if_true] at this
          rw [if_neg (by omega), below n a' a hnp.1 (by omega)] at this
          exact absurd this hb
        · exact heq
        · have := h a'
          simp only [Memory.read, if_true] at this
          rw [if_neg (by omega), below m a a' hmp.1 (by omega)] at this
          exact absurd this.symm hb'
      subst ha
      have hbb : b = b' := by simpa [Memory.read] using h a
      subst hbb
      congr 1
      refine ih n ⟨hmp.2, fun c hc => hm.2 c (by simp [hc])⟩ ⟨hnp.2, fun c hc => hn.2 c (by simp [hc])⟩ fun x => ?_
      by_cases hx : x = a
      · subst hx
        rw [below m x x hmp.1 (Nat.le_refl _), below n x x hnp.1 (Nat.le_refl _)]
      · simpa [Memory.read, hx] using h x

/-- Loading an image keeps the canonical form. -/
theorem load_wf (s : State) (image : List Host.Cell) (hw : s.mem.wf) : (s.load image).mem.wf := by
  show (image.foldl (fun m c => if c.1 < 2 ^ 32 then m.write c.1 c.2 else m) s.mem).wf
  generalize s.mem = m at hw
  induction image generalizing m with
  | nil => exact hw
  | cons c l ih =>
    refine ih _ ?_
    dsimp only
    split
    · rename_i h
      exact write_wf _ _ _ hw h
    · exact hw

/-- Memory at reset lists nothing. -/
theorem reset_mem_wf (c : Config) : (State.resetWith c).mem.wf := nil_wf

end Sys2Proof.Machine
end

