-- ==== Sys2Proof/Laws/State.lean ====
section
/-! SUPPORT. One lemma per field per update of State, so that no proof unfolds a record update, and the laws of the
register file. -/

namespace Sys2Proof.Machine

/-! ### Fields the updates leave alone, and fields they write -/

@[simp] theorem setPc_pc (s : State) (t : Word) : (s.setPc t).pc = t := rfl
@[simp] theorem setPc_regs (s : State) (t : Word) : (s.setPc t).regs = s.regs := rfl
@[simp] theorem setPc_mode (s : State) (t : Word) : (s.setPc t).mode = s.mode := rfl
@[simp] theorem setPc_mem (s : State) (t : Word) : (s.setPc t).mem = s.mem := rfl
@[simp] theorem setPc_irq (s : State) (t : Word) : (s.setPc t).irq = s.irq := rfl
@[simp] theorem setPc_cfg (s : State) (t : Word) : (s.setPc t).cfg = s.cfg := rfl

@[simp] theorem setMode_pc (s : State) (m : Mode) : (s.setMode m).pc = s.pc := rfl
@[simp] theorem setMode_regs (s : State) (m : Mode) : (s.setMode m).regs = s.regs := rfl
@[simp] theorem setMode_mode (s : State) (m : Mode) : (s.setMode m).mode = m := rfl
@[simp] theorem setMode_mem (s : State) (m : Mode) : (s.setMode m).mem = s.mem := rfl
@[simp] theorem setMode_irq (s : State) (m : Mode) : (s.setMode m).irq = s.irq := rfl
@[simp] theorem setMode_cfg (s : State) (m : Mode) : (s.setMode m).cfg = s.cfg := rfl

@[simp] theorem setMem_pc (s : State) (m : Memory) : (s.setMem m).pc = s.pc := rfl
@[simp] theorem setMem_regs (s : State) (m : Memory) : (s.setMem m).regs = s.regs := rfl
@[simp] theorem setMem_mode (s : State) (m : Memory) : (s.setMem m).mode = s.mode := rfl
@[simp] theorem setMem_mem (s : State) (m : Memory) : (s.setMem m).mem = m := rfl
@[simp] theorem setMem_irq (s : State) (m : Memory) : (s.setMem m).irq = s.irq := rfl
@[simp] theorem setMem_cfg (s : State) (m : Memory) : (s.setMem m).cfg = s.cfg := rfl

@[simp] theorem sampled_pc (s : State) : s.sampled.pc = s.pc := rfl
@[simp] theorem sampled_regs (s : State) : s.sampled.regs = s.regs := rfl
@[simp] theorem sampled_mode (s : State) : s.sampled.mode = s.mode := rfl
@[simp] theorem sampled_mem (s : State) : s.sampled.mem = s.mem := rfl
@[simp] theorem sampled_irq (s : State) : s.sampled.irq = irqLater s.irq := rfl
@[simp] theorem sampled_cfg (s : State) : s.sampled.cfg = s.cfg := rfl

@[simp] theorem setReg_pc (s : State) (r : Reg) (v : Word) : (s.setReg r v).pc = s.pc := by
  unfold State.setReg; split <;> rfl
@[simp] theorem setReg_mode (s : State) (r : Reg) (v : Word) : (s.setReg r v).mode = s.mode := by
  unfold State.setReg; split <;> rfl
@[simp] theorem setReg_mem (s : State) (r : Reg) (v : Word) : (s.setReg r v).mem = s.mem := by
  unfold State.setReg; split <;> rfl
@[simp] theorem setReg_irq (s : State) (r : Reg) (v : Word) : (s.setReg r v).irq = s.irq := by
  unfold State.setReg; split <;> rfl
@[simp] theorem setReg_cfg (s : State) (r : Reg) (v : Word) : (s.setReg r v).cfg = s.cfg := by
  unfold State.setReg; split <;> rfl

@[simp] theorem advance_pc (s : State) : s.advance.pc = s.pc + 4 := rfl
@[simp] theorem advance_regs (s : State) : s.advance.regs = s.regs := rfl
@[simp] theorem advance_mode (s : State) : s.advance.mode = s.mode := rfl
@[simp] theorem advance_mem (s : State) : s.advance.mem = s.mem := rfl
@[simp] theorem advance_irq (s : State) : s.advance.irq = s.irq := rfl
@[simp] theorem advance_cfg (s : State) : s.advance.cfg = s.cfg := rfl

/-! ### The input irq -/

/-- The sample put first is the one read first (log entry 5). -/
@[simp] theorem irqNow_irqThen (b : Bool) (i : IrqInput) : irqNow (irqThen b i) = b := rfl

/-- What follows the sample put first is the input it was put before. -/
@[simp] theorem irqLater_irqThen (b : Bool) (i : IrqInput) : irqLater (irqThen b i) = i := rfl

/-- The input at reset stays low (log entry 5). -/
@[simp] theorem irqNow_low : irqNow ⟨[], .repeating []⟩ = false := rfl
@[simp] theorem irqLater_low : irqLater ⟨[], .repeating []⟩ = ⟨[], .repeating []⟩ := rfl

/-! ### Registers -/

@[simp] theorem reg_setPc (s : State) (t : Word) (r : Reg) : (s.setPc t).reg r = s.reg r := rfl
@[simp] theorem reg_setMode (s : State) (m : Mode) (r : Reg) : (s.setMode m).reg r = s.reg r := rfl
@[simp] theorem reg_setMem (s : State) (m : Memory) (r : Reg) : (s.setMem m).reg r = s.reg r := rfl
@[simp] theorem reg_sampled (s : State) (r : Reg) : s.sampled.reg r = s.reg r := rfl
@[simp] theorem reg_advance (s : State) (r : Reg) : s.advance.reg r = s.reg r := rfl

/-- Register 31 reads 0 (R22). -/
@[simp] theorem reg_31 (s : State) : s.reg 31 = 0 := rfl

/-- What a register reads after a write (R22). -/
theorem reg_setReg (s : State) (rc : Reg) (v : Word) (r : Reg) :
    (s.setReg rc v).reg r = if r = 31 then 0 else if r = rc then v else s.reg r := by
  have hr : r.val < 31 ∨ r = 31 := by
    rcases Nat.lt_or_ge r.val 31 with h | h
    · exact .inl h
    · exact .inr (Fin.ext (by show r.val = 31; have := r.isLt; omega))
  rcases hr with hr | rfl
  · have h31 : r ≠ 31 := fun h => by subst h; exact absurd hr (by decide)
    rw [if_neg h31]
    unfold State.setReg
    split
    · rename_i hc
      simp only [State.reg, hr, dif_pos, Vector.getElem_set]
      by_cases h : r = rc
      · simp [h]
      · rw [if_neg h, if_neg fun e => h (Fin.ext e.symm)]
    · rename_i hc
      rw [if_neg fun e : r = rc => hc (e ▸ hr)]
  · rfl

/-- A write to register 31 changes nothing (R22). -/
@[simp] theorem setReg_31 (s : State) (v : Word) : s.setReg 31 v = s := rfl

/-- A write of what any register but 31 reads afterwards. -/
theorem reg_setReg_same (s : State) (rc : Reg) (v : Word) (h : rc ≠ 31) : (s.setReg rc v).reg rc = v := by
  simp [reg_setReg, h]

/-- A write leaves the other registers alone. -/
theorem reg_setReg_other (s : State) (rc r : Reg) (v : Word) (h : r ≠ rc) : (s.setReg rc v).reg r = s.reg r := by
  by_cases h31 : r = 31
  · subst h31; rfl
  · simp [reg_setReg, h, h31]

/-! ### Updates of different fields commute -/

theorem setReg_setPc (s : State) (r : Reg) (v t : Word) : (s.setPc t).setReg r v = (s.setReg r v).setPc t := by
  unfold State.setReg State.setPc; split <;> rfl
theorem setReg_setMode (s : State) (r : Reg) (v : Word) (m : Mode) :
    (s.setMode m).setReg r v = (s.setReg r v).setMode m := by
  unfold State.setReg State.setMode; split <;> rfl
theorem setReg_setMem (s : State) (r : Reg) (v : Word) (m : Memory) :
    (s.setMem m).setReg r v = (s.setReg r v).setMem m := by
  unfold State.setReg State.setMem; split <;> rfl

end Sys2Proof.Machine
end

