-- ==== Sys2Proof/Laws/Ops.lean ====
section
/-! SUPPORT. For each shared operation, once, everything it can do. -/

namespace Sys2Proof.Machine

/-! ### Sequencing -/

@[simp] theorem andThen_next {α β : Type} (a : α) (f : α → Answer β) : andThen (.next a) f = f a := rfl
@[simp] theorem andThen_fault {α β : Type} (r : Fault) (f : α → Answer β) : andThen (.fault r) f = .fault r := rfl
@[simp] theorem andThen_refused {α β : Type} (r : Refusal) (f : α → Answer β) :
    andThen (.refused r) f = .refused r := rfl

/-- A sequence answers a value exactly when both parts do. -/
theorem andThen_eq_next {α β : Type} {x : Answer α} {f : α → Answer β} {b : β} :
    andThen x f = .next b ↔ ∃ a, x = .next a ∧ f a = .next b := by
  cases x <;> simp

/-! ### Alignment -/

/-- `aligned` is "a multiple of 4". -/
theorem aligned_iff (a : Word) : aligned a = true ↔ a.toNat % 4 = 0 := by
  simp [aligned, ← BitVec.toNat_inj]

theorem aligned_false_iff (a : Word) : aligned a = false ↔ a.toNat % 4 ≠ 0 := by
  rw [← Bool.not_eq_true, aligned_iff]

/-- `alignDown` drops the remainder by 4. -/
theorem alignDown_toNat (a : Word) : (alignDown a).toNat = a.toNat / 4 * 4 := by
  have h := a.isLt
  simp only [alignDown, BitVec.toNat_append, BitVec.extractLsb'_toNat, BitVec.toNat_ofNat, Nat.shiftRight_eq_div_pow,
    Nat.shiftLeft_eq]
  simp
  omega

theorem alignDown_mod (a : Word) : (alignDown a).toNat % 4 = 0 := by
  rw [alignDown_toNat]; omega

theorem alignDown_of_aligned (a : Word) (h : a.toNat % 4 = 0) : alignDown a = a := by
  apply BitVec.eq_of_toNat_eq; rw [alignDown_toNat]; omega

/-- The two ways the files say "with the two low bits 0". -/
theorem wordAddress_eq (a : Word) : wordAddress a = alignDown a := by
  apply BitVec.eq_of_toNat_eq
  have h := a.isLt
  rw [alignDown_toNat, wordAddress, BitVec.toNat_ofNat]
  omega

/-- The four bytes of a word at an address with the two low bits 0 lie in the space. -/
theorem alignDown_add_three (a : Word) : (alignDown a).toNat + 3 < 2 ^ 32 := by
  have h := a.isLt
  rw [alignDown_toNat]
  omega

/-- Adding a multiple of 4 keeps a multiple of 4. -/
theorem add_mod_four (a b : Word) (ha : a.toNat % 4 = 0) (hb : b.toNat % 4 = 0) : (a + b).toNat % 4 = 0 := by
  rw [BitVec.toNat_add]; omega

/-- 4 times anything is a multiple of 4. -/
theorem four_mul_mod_four (a : Word) : (4 * a).toNat % 4 = 0 := by
  rw [BitVec.toNat_mul]
  show 4 * a.toNat % 2 ^ 32 % 4 = 0
  omega

/-- The address relative to an aligned `pc` is aligned (10_state.md R27). -/
theorem relativeAddress_mod_four (s : State) (lit : Lit) (h : s.pc.toNat % 4 = 0) :
    (relativeAddress s lit).toNat % 4 = 0 :=
  add_mod_four _ _ (add_mod_four _ _ h (by decide)) (four_mul_mod_four _)

/-! ### Word accesses -/

/-- The address of a data access: the effective address with its two low bits 0, or the refusal of R42. -/
theorem dataAddress_of_dataAligned (s : State) (ea : Word) (h : DataAligned s ea) :
    dataAddress s ea = .next (wordAddress ea) := by
  rw [wordAddress_eq]
  unfold dataAddress
  split
  · rename_i ha
    rw [alignDown_of_aligned _ ((aligned_iff ea).1 ha)]
  · rename_i ha
    rcases h with h | h
    · exact absurd ((aligned_iff ea).2 h) ha
    · rw [h]

theorem dataAddress_of_not_dataAligned (s : State) (ea : Word) (h : ¬ DataAligned s ea) :
    dataAddress s ea = .refused (.misalignedData ea) := by
  unfold dataAddress
  split
  · rename_i ha
    exact absurd (.inl ((aligned_iff ea).1 ha)) h
  · split
    · rename_i hm
      exact absurd (.inr hm) h
    · rfl

/-- The three outcomes of the checks before a word access (R42, R47). -/
theorem checkedAddress_eq (s : State) (ea : Word) [Decidable (DataAligned s ea)] :
    checkedAddress s ea =
      if ¬ DataAligned s ea then .refused (.misalignedData ea)
      else if memValid s.cfg (wordAddress ea) = true then .next (wordAddress ea)
      else .fault (.noMemory (wordAddress ea)) := by
  unfold checkedAddress
  split
  · rename_i h
    rw [dataAddress_of_not_dataAligned s ea h]; rfl
  · rename_i h
    rw [dataAddress_of_dataAligned s ea (Decidable.not_not.1 h)]; rfl

theorem checkedAddress_of_accessible (s : State) (ea : Word) (h : Accessible s ea) :
    checkedAddress s ea = .next (wordAddress ea) := by
  unfold checkedAddress
  rw [dataAddress_of_dataAligned s ea h.1, andThen_next, if_pos h.2]

/-- Where the checks pass, the access was accessible. -/
theorem accessible_of_checkedAddress {s : State} {ea a : Word} (h : checkedAddress s ea = .next a) :
    Accessible s ea ∧ a = wordAddress ea := by
  classical
  rw [checkedAddress_eq] at h
  split at h
  · cases h
  · split at h
    · rename_i h1 h2
      exact ⟨⟨not_not.1 h1, h2⟩, by cases h; rfl⟩
    · cases h

theorem memRead_of_accessible (s : State) (ea : Word) (h : Accessible s ea) :
    memRead s ea = .next (s.mem.readWord s.cfg.byteOrder (wordAddress ea).toNat) := by
  unfold memRead
  rw [checkedAddress_of_accessible s ea h, andThen_next]

/-- Everything a read can answer. -/
theorem memRead_eq_next {s : State} {ea w : Word} (h : memRead s ea = .next w) :
    Accessible s ea ∧ w = s.mem.readWord s.cfg.byteOrder (wordAddress ea).toNat := by
  obtain ⟨a, ha, hw⟩ := andThen_eq_next.1 h
  obtain ⟨hacc, rfl⟩ := accessible_of_checkedAddress ha
  exact ⟨hacc, by cases hw; rfl⟩

theorem memWrite_of_accessible (s : State) (ea v : Word) (h : Accessible s ea) :
    memWrite s ea v = .next (s.setMem (s.mem.writeWord s.cfg.byteOrder (wordAddress ea).toNat v)) := by
  unfold memWrite
  rw [checkedAddress_of_accessible s ea h, andThen_next]

/-- Everything a write can answer. -/
theorem memWrite_eq_next {s t : State} {ea v : Word} (h : memWrite s ea v = .next t) :
    Accessible s ea ∧ t = s.setMem (s.mem.writeWord s.cfg.byteOrder (wordAddress ea).toNat v) := by
  obtain ⟨a, ha, hw⟩ := andThen_eq_next.1 h
  obtain ⟨hacc, rfl⟩ := accessible_of_checkedAddress ha
  exact ⟨hacc, by cases hw; rfl⟩

/-! ### A platform's own privileged instruction -/

@[simp] theorem applyPriv_irq (e : PrivEffect) (s : State) : (applyPriv e s).irq = s.irq := rfl
@[simp] theorem applyPriv_cfg (e : PrivEffect) (s : State) : (applyPriv e s).cfg = s.cfg := rfl
@[simp] theorem applyPriv_mode (e : PrivEffect) (s : State) : (applyPriv e s).mode = e.mode := rfl
@[simp] theorem applyPriv_regs (e : PrivEffect) (s : State) : (applyPriv e s).regs = e.regs := rfl

/-- It leaves `pc` a multiple of 4 (10_state.md R27). -/
theorem applyPriv_pc_mod_four (e : PrivEffect) (s : State) : (applyPriv e s).pc.toNat % 4 = 0 := by
  show (e.pcWord ++ 0#2).toNat % 4 = 0
  rw [BitVec.toNat_append]
  simp [Nat.shiftLeft_eq]

/-- It keeps the canonical form of memory. -/
theorem applyPriv_wf (e : PrivEffect) (s : State) (h : s.mem.wf) : (applyPriv e s).mem.wf :=
  load_wf _ _ h

/-! ### Divisions -/

/-- A division with a result, and one without (40_operate.md R106). -/
theorem divAnswer_of_result (c : Config) (a b : Word) (h : DivisionHasResult c a.toInt b.toInt) :
    divAnswer c a b = .next (aluDiv a b) := by
  unfold divAnswer
  rcases h with h | ⟨h0, h1⟩
  · rw [h]
  · cases c.divCorner
    · simp only [if_neg h0, if_neg h1]
    · rfl

theorem divAnswer_by_zero (c : Config) (a b : Word) (h : c.divCorner = .refuse) (hb : b.toInt = 0) :
    divAnswer c a b = .refused .divisionByZero := by
  unfold divAnswer
  rw [h]
  exact if_pos hb

theorem divAnswer_overflow (c : Config) (a b : Word) (h : c.divCorner = .refuse) (ha : a.toInt = -2 ^ 31)
    (hb : b.toInt = -1) : divAnswer c a b = .refused .quotientOverflow := by
  unfold divAnswer
  rw [h]
  show (if b.toInt = 0 then _ else if _ then _ else _) = _
  rw [if_neg (by omega), if_pos ⟨ha, hb⟩]

/-- Where a division answers a value it is the quotient of `aluDiv`. -/
theorem divAnswer_eq_next {c : Config} {a b r : Word} (h : divAnswer c a b = .next r) : r = aluDiv a b := by
  unfold divAnswer at h
  split at h
  · cases h; rfl
  · split at h
    · cases h
    · split at h <;> cases h
      rfl

/-! ### Traps -/

@[simp] theorem takeTrap_pc (t : Trap) (s : State) : (takeTrap t s).pc = trapVector s.cfg t := by
  simp [takeTrap]
@[simp] theorem takeTrap_mode (t : Trap) (s : State) : (takeTrap t s).mode = .supervisor := by
  simp [takeTrap]
@[simp] theorem takeTrap_mem (t : Trap) (s : State) : (takeTrap t s).mem = s.mem := by
  simp [takeTrap]
@[simp] theorem takeTrap_irq (t : Trap) (s : State) : (takeTrap t s).irq = s.irq := by
  simp [takeTrap]
@[simp] theorem takeTrap_cfg (t : Trap) (s : State) : (takeTrap t s).cfg = s.cfg := by
  simp [takeTrap]

/-- The registers after a trap entry: R30 holds `pc + 4`, the rest are as before. -/
theorem reg_takeTrap (t : Trap) (s : State) (r : Reg) :
    (takeTrap t s).reg r = if r = 31 then 0 else if r = xp then s.pc + 4 else s.reg r := by
  simp [takeTrap, reg_setReg]

/-- The word access of R42 and R47 does not look at the registers, the mode or the interrupt input. -/
theorem memRead_congr (s t : State) (ea : Word) (hm : t.mem = s.mem) (hc : t.cfg = s.cfg) :
    memRead t ea = memRead s ea := by
  simp only [memRead, checkedAddress, dataAddress, hm, hc]

/-! ### Jumps -/

/-- The address a jump goes to: the target with its two low bits 0, or the refusal of R43. -/
theorem jumpAddress_of_aligned_or_mask (s : State) (t : Word)
    (h : t.toNat % 4 = 0 ∨ s.cfg.misalignedPc = .maskLow2) : jumpAddress s t = .next (wordAddress t) := by
  rw [wordAddress_eq]
  unfold jumpAddress
  split
  · rename_i ha
    rw [alignDown_of_aligned _ ((aligned_iff t).1 ha)]
  · rename_i ha
    rcases h with h | h
    · exact absurd ((aligned_iff t).2 h) ha
    · rw [h]

theorem jumpAddress_refused (s : State) (t : Word) (h : t.toNat % 4 ≠ 0) (hc : s.cfg.misalignedPc = .refuse) :
    jumpAddress s t = .refused (.misalignedJump t) := by
  unfold jumpAddress
  rw [(aligned_false_iff t).2 h, hc]
  rfl

/-- Everything the address of a jump can be. -/
theorem jumpAddress_eq_next {s : State} {t a : Word} (h : jumpAddress s t = .next a) :
    a = wordAddress t ∧ (t.toNat % 4 = 0 ∨ s.cfg.misalignedPc = .maskLow2) := by
  by_cases ht : t.toNat % 4 = 0
  · rw [jumpAddress_of_aligned_or_mask s t (.inl ht)] at h
    exact ⟨by cases h; rfl, .inl ht⟩
  · cases hc : s.cfg.misalignedPc with
    | refuse => rw [jumpAddress_refused s t ht hc] at h; cases h
    | maskLow2 =>
      rw [jumpAddress_of_aligned_or_mask s t (.inr hc)] at h
      exact ⟨by cases h; rfl, .inr rfl⟩

/-! ### Ends shared by the meanings -/

/-- Everything an instruction that writes a result does. -/
theorem writeResult_writesOnly (s : State) (rc : Reg) (v : Word) :
    ∃ t, writeResult s rc v = .next t ∧ WritesOnly s t rc v (s.pc + 4) :=
  ⟨_, rfl, fun r => by simp [reg_setReg], by simp, by simp, fun _ => by simp, by simp, by simp⟩

/-- Everything a branch does. -/
theorem branchLinked_writesOnly (s : State) (taken : Bool) (target : Word) (rc : Reg) :
    ∃ t, branchLinked s taken target rc = .next t ∧
      WritesOnly s t rc (s.pc + 4) (if taken then target else s.pc + 4) :=
  ⟨_, rfl, fun r => by simp [reg_setReg], by simp, by simp, fun _ => by simp, by simp, by simp⟩

/-- Everything IllegalInstruction does. -/
theorem raiseIllegal_trapEntered (s : State) :
    ∃ t, raiseIllegal s = .next t ∧ TrapEntered s t s.cfg.vecIllop :=
  ⟨_, rfl, fun r => reg_takeTrap _ _ r, by simp [trapVector], by simp, fun _ => by simp, by simp, by simp⟩

/-- Everything a load that completes does. -/
theorem loadInto_of_accessible (s : State) (ea : Word) (rc : Reg) (h : Accessible s ea) :
    ∃ t, loadInto s ea rc = .next t ∧
      WritesOnly s t rc (s.mem.readWord s.cfg.byteOrder (wordAddress ea).toNat) (s.pc + 4) := by
  unfold loadInto
  rw [memRead_of_accessible s ea h, andThen_next]
  exact writeResult_writesOnly s rc _

/-- A store that completes, as one state. -/
theorem storeFrom_of_accessible (s : State) (ea v : Word) (h : Accessible s ea) :
    storeFrom s ea v =
      .next (s.setMem (s.mem.writeWord s.cfg.byteOrder (wordAddress ea).toNat v)).advance := by
  unfold storeFrom
  rw [memWrite_of_accessible s ea v h, andThen_next]

/-- A jump that completes, as one state. -/
theorem jumpLinked_of_aligned_or_mask (s : State) (t : Word) (rc : Reg)
    (h : t.toNat % 4 = 0 ∨ s.cfg.misalignedPc = .maskLow2) :
    jumpLinked s t rc =
      .next (((s.setReg rc (s.pc + 4)).setMode (jmpMode s.cfg s.mode t)).setPc (wordAddress t)) := by
  unfold jumpLinked
  rw [jumpAddress_of_aligned_or_mask s t h, andThen_next]

end Sys2Proof.Machine
end

