-- ==== Sys2Proof/Laws/Exec.lean ====
section
/-! SUPPORT. Once for all instructions: the six shapes a next state can have, from which statements about every
instruction and every step follow without unfolding a meaning. -/

namespace Sys2Proof.Machine

/-- The register an instruction's Rc field names as its destination; none for ST, which stores from Rc, and for opcode
0x00. -/
def destination : Instr → Option Reg
  | .priv .. | .st .. => none
  | .ld _ _ rc | .jmp _ rc | .beq _ _ rc | .bne _ _ rc | .ldr _ rc => some rc
  | .add _ _ rc | .sub _ _ rc | .mul _ _ rc | .div _ _ rc => some rc
  | .cmpeq _ _ rc | .cmplt _ _ rc | .cmple _ _ rc | .and _ _ rc | .or _ _ rc | .xor _ _ rc => some rc
  | .shl _ _ rc | .shr _ _ rc | .sra _ _ rc => some rc
  | .addc _ _ rc | .subc _ _ rc | .mulc _ _ rc | .divc _ _ rc => some rc
  | .cmpeqc _ _ rc | .cmpltc _ _ rc | .cmplec _ _ rc | .andc _ _ rc | .orc _ _ rc | .xorc _ _ rc => some rc
  | .shlc _ _ rc | .shrc _ _ rc | .srac _ _ rc => some rc

/-- A store's next state, where it has one. -/
theorem storeFrom_eq_next {s t : State} {ea v : Word} (h : storeFrom s ea v = .next t) :
    Accessible s ea ∧
      t = (s.setMem (s.mem.writeWord s.cfg.byteOrder (wordAddress ea).toNat v)).advance := by
  obtain ⟨m, hm, ht⟩ := andThen_eq_next.1 h
  obtain ⟨hacc, rfl⟩ := memWrite_eq_next hm
  exact ⟨hacc, by cases ht; rfl⟩

/-- A load's next state, where it has one. -/
theorem loadInto_eq_next {s t : State} {ea : Word} {rc : Reg} (h : loadInto s ea rc = .next t) :
    Accessible s ea ∧ ∃ v, t = (s.setReg rc v).advance := by
  obtain ⟨w, hw, ht⟩ := andThen_eq_next.1 h
  exact ⟨(memRead_eq_next hw).1, w, by cases ht; rfl⟩

/-- A jump's next state, where it has one. -/
theorem jumpLinked_eq_next {s t : State} {target : Word} {rc : Reg} (h : jumpLinked s target rc = .next t) :
    t = ((s.setReg rc (s.pc + 4)).setMode (jmpMode s.cfg s.mode target)).setPc (wordAddress target) := by
  obtain ⟨a, ha, ht⟩ := andThen_eq_next.1 h
  obtain ⟨rfl, _⟩ := jumpAddress_eq_next ha
  cases ht; rfl

/-- An optional instruction's next state: the instruction's, or the trap's. -/
theorem ifPresent_eq_next {p : Bool} {s t : State} {r : Result} (h : ifPresent p s r = .next t) :
    r = .next t ∨ t = takeTrap .illegalInstruction s := by
  unfold ifPresent at h
  split at h
  · exact .inl h
  · exact .inr (by cases h; rfl)

/-- A division's next state, where it has one. -/
theorem division_eq_next {s t : State} {a b : Word} {rc : Reg}
    (h : (andThen (divAnswer s.cfg a b) fun r => writeResult s rc r) = .next t) :
    writeResult s rc (aluDiv a b) = .next t := by
  obtain ⟨r, hr, ht⟩ := andThen_eq_next.1 h
  exact divAnswer_eq_next hr ▸ ht

/-- The six shapes of an instruction's next state: a register written and `pc + 4`; a word stored and `pc + 4`; a jump;
a branch; the entry of IllegalInstruction; a privileged instruction of the platform's own. -/
theorem exec_cases {i : Instr} {s t : State} (h : exec i s = .next t) :
    (∃ rc v, destination i = some rc ∧ t = (s.setReg rc v).advance) ∨
    (∃ rc lit ra, i = .st rc lit ra ∧ Accessible s (baseAddress s ra lit) ∧
      t = (s.setMem (s.mem.writeWord s.cfg.byteOrder (wordAddress (baseAddress s ra lit)).toNat (s.reg rc))).advance) ∨
    (∃ ra rc, i = .jmp ra rc ∧
      t = ((s.setReg rc (s.pc + 4)).setMode (jmpMode s.cfg s.mode (s.reg ra))).setPc (wordAddress (s.reg ra))) ∨
    (∃ rc lit taken, destination i = some rc ∧
      t = (s.setReg rc (s.pc + 4)).setPc (if taken = true then relativeAddress s lit else s.pc + 4)) ∨
    t = takeTrap .illegalInstruction s ∨
    (s.mode = .supervisor ∧ s.cfg.privExec = .platform ∧ ∃ rest e, i = .priv rest ∧ t = applyPriv e s) := by
  have result : ∀ rc v, writeResult s rc v = .next t → t = (s.setReg rc v).advance := fun rc v h => by cases h; rfl
  cases i
  case priv rest =>
    refine .inr (.inr (.inr (.inr ?_)))
    simp only [exec, execPriv] at h
    split at h
    · exact .inl (by cases h; rfl)
    · rename_i hm
      split at h
      · exact .inl (by cases h; rfl)
      · cases h
      · rename_i hp
        exact .inr ⟨hm, hp, rest, _, rfl, by cases h; rfl⟩
  case ld ra lit rc =>
    obtain ⟨_, v, ht⟩ := loadInto_eq_next h
    exact .inl ⟨rc, v, rfl, ht⟩
  case ldr lit rc =>
    obtain ⟨_, v, ht⟩ := loadInto_eq_next h
    exact .inl ⟨rc, v, rfl, ht⟩
  case st rc lit ra => exact .inr (.inl ⟨rc, lit, ra, rfl, storeFrom_eq_next h⟩)
  case jmp ra rc => exact .inr (.inr (.inl ⟨ra, rc, rfl, jumpLinked_eq_next h⟩))
  case beq ra lit rc => exact .inr (.inr (.inr (.inl ⟨rc, lit, _, rfl, by cases h; rfl⟩)))
  case bne ra lit rc => exact .inr (.inr (.inr (.inl ⟨rc, lit, _, rfl, by cases h; rfl⟩)))
  case mul ra rb rc =>
    rcases ifPresent_eq_next h with h | h
    · exact .inl ⟨rc, _, rfl, result _ _ h⟩
    · exact .inr (.inr (.inr (.inr (.inl h))))
  case div ra rb rc =>
    rcases ifPresent_eq_next h with h | h
    · exact .inl ⟨rc, _, rfl, result _ _ (division_eq_next h)⟩
    · exact .inr (.inr (.inr (.inr (.inl h))))
  case mulc ra lit rc =>
    rcases ifPresent_eq_next h with h | h
    · exact .inl ⟨rc, _, rfl, result _ _ h⟩
    · exact .inr (.inr (.inr (.inr (.inl h))))
  case divc ra lit rc =>
    rcases ifPresent_eq_next h with h | h
    · exact .inl ⟨rc, _, rfl, result _ _ (division_eq_next h)⟩
    · exact .inr (.inr (.inr (.inr (.inl h))))
  all_goals exact .inl ⟨_, _, rfl, result _ _ h⟩

/-- The destination of a decoded instruction is the word's Rc field (30_encoding.md R63). -/
theorem destination_of_decode {w : Word} {i : Instr} {rc : Reg} (h : decode w = .ok i)
    (hd : destination i = some rc) : rc = rcField w := by
  unfold decode at h
  split at h <;> cases h <;> cases hd <;> rfl

/-- Everything a step can do: an interrupt's entry, or the fetched word's instruction or IllegalInstruction. -/
theorem step_cases {s t : State} (h : step s = .next t) :
    (interruptTaken s = true ∧ t = takeTrap .interrupt s.sampled) ∨
    (interruptTaken s = false ∧ ∃ w, fetch s.sampled = .next w ∧
      ((∃ i, decode w = .ok i ∧ exec i s.sampled = .next t) ∨
        ((∃ r, decode w = .error r) ∧ t = takeTrap .illegalInstruction s.sampled))) := by
  unfold step at h
  split at h
  · rename_i hi
    exact .inl ⟨hi, by cases h; rfl⟩
  · rename_i hi
    obtain ⟨w, hw, he⟩ := andThen_eq_next.1 h
    refine .inr ⟨by simpa using hi, w, hw, ?_⟩
    unfold execWord at he
    split at he
    · rename_i i hi
      exact .inl ⟨i, hi, he⟩
    · rename_i r hr
      exact .inr ⟨⟨r, hr⟩, by cases he; rfl⟩

end Sys2Proof.Machine
end

