-- ==== Sys2Proof/Laws/PerInstr.lean ====
section
/-! SUPPORT. Statements about every instruction as syntax, one lemma per constructor. -/

namespace Sys2Proof.Laws.EncodeOpcode

/-- Bits 31:26 of the word an instruction is assembled to are its opcode (30_encoding.md R63, R82). -/
def Statement (i : Instr) : Prop := opcodeField (encode i) = i.opcode

theorem priv (rest : BitVec 26) : Statement (.priv rest) := opcodeField_append _ _
theorem ld (ra : Reg) (lit : Lit) (rc : Reg) : Statement (.ld ra lit rc) := opcodeField_encLit _ _ _ _
theorem st (rc : Reg) (lit : Lit) (ra : Reg) : Statement (.st rc lit ra) := opcodeField_encLit _ _ _ _
theorem jmp (ra rc : Reg) : Statement (.jmp ra rc) := opcodeField_encLit _ _ _ _
theorem beq (ra : Reg) (lit : Lit) (rc : Reg) : Statement (.beq ra lit rc) := opcodeField_encLit _ _ _ _
theorem bne (ra : Reg) (lit : Lit) (rc : Reg) : Statement (.bne ra lit rc) := opcodeField_encLit _ _ _ _
theorem ldr (lit : Lit) (rc : Reg) : Statement (.ldr lit rc) := opcodeField_encLit _ _ _ _
theorem add (ra rb rc : Reg) : Statement (.add ra rb rc) := opcodeField_encOp _ _ _ _
theorem sub (ra rb rc : Reg) : Statement (.sub ra rb rc) := opcodeField_encOp _ _ _ _
theorem mul (ra rb rc : Reg) : Statement (.mul ra rb rc) := opcodeField_encOp _ _ _ _
theorem div (ra rb rc : Reg) : Statement (.div ra rb rc) := opcodeField_encOp _ _ _ _
theorem cmpeq (ra rb rc : Reg) : Statement (.cmpeq ra rb rc) := opcodeField_encOp _ _ _ _
theorem cmplt (ra rb rc : Reg) : Statement (.cmplt ra rb rc) := opcodeField_encOp _ _ _ _
theorem cmple (ra rb rc : Reg) : Statement (.cmple ra rb rc) := opcodeField_encOp _ _ _ _
theorem and (ra rb rc : Reg) : Statement (.and ra rb rc) := opcodeField_encOp _ _ _ _
theorem or (ra rb rc : Reg) : Statement (.or ra rb rc) := opcodeField_encOp _ _ _ _
theorem xor (ra rb rc : Reg) : Statement (.xor ra rb rc) := opcodeField_encOp _ _ _ _
theorem shl (ra rb rc : Reg) : Statement (.shl ra rb rc) := opcodeField_encOp _ _ _ _
theorem shr (ra rb rc : Reg) : Statement (.shr ra rb rc) := opcodeField_encOp _ _ _ _
theorem sra (ra rb rc : Reg) : Statement (.sra ra rb rc) := opcodeField_encOp _ _ _ _
theorem addc (ra : Reg) (lit : Lit) (rc : Reg) : Statement (.addc ra lit rc) := opcodeField_encLit _ _ _ _
theorem subc (ra : Reg) (lit : Lit) (rc : Reg) : Statement (.subc ra lit rc) := opcodeField_encLit _ _ _ _
theorem mulc (ra : Reg) (lit : Lit) (rc : Reg) : Statement (.mulc ra lit rc) := opcodeField_encLit _ _ _ _
theorem divc (ra : Reg) (lit : Lit) (rc : Reg) : Statement (.divc ra lit rc) := opcodeField_encLit _ _ _ _
theorem cmpeqc (ra : Reg) (lit : Lit) (rc : Reg) : Statement (.cmpeqc ra lit rc) := opcodeField_encLit _ _ _ _
theorem cmpltc (ra : Reg) (lit : Lit) (rc : Reg) : Statement (.cmpltc ra lit rc) := opcodeField_encLit _ _ _ _
theorem cmplec (ra : Reg) (lit : Lit) (rc : Reg) : Statement (.cmplec ra lit rc) := opcodeField_encLit _ _ _ _
theorem andc (ra : Reg) (lit : Lit) (rc : Reg) : Statement (.andc ra lit rc) := opcodeField_encLit _ _ _ _
theorem orc (ra : Reg) (lit : Lit) (rc : Reg) : Statement (.orc ra lit rc) := opcodeField_encLit _ _ _ _
theorem xorc (ra : Reg) (lit : Lit) (rc : Reg) : Statement (.xorc ra lit rc) := opcodeField_encLit _ _ _ _
theorem shlc (ra : Reg) (lit : Lit) (rc : Reg) : Statement (.shlc ra lit rc) := opcodeField_encLit _ _ _ _
theorem shrc (ra : Reg) (lit : Lit) (rc : Reg) : Statement (.shrc ra lit rc) := opcodeField_encLit _ _ _ _
theorem srac (ra : Reg) (lit : Lit) (rc : Reg) : Statement (.srac ra lit rc) := opcodeField_encLit _ _ _ _

end Sys2Proof.Laws.EncodeOpcode
end

