-- ==== Sys2Proof/Machine/Conventions.lean ====
section
/-! DEFINITION. The software conventions of 44_macros_and_conventions.md sections 2 and 3 (the stack and the procedure
call). The hardware enforces none of them (R187, 42_other.md R148): no step reads this file. -/

namespace Sys2Proof.Machine

/-- "The contents of SP are always a multiple of 4" (R186). -/
def stackAligned (s : State) : Prop := (s.reg sp).toNat % 4 = 0

/-- The address of the stack element `i` under the top, the topmost being `i = 0`: `SP - 4 * (i + 1)` (R186). -/
def stackSlot (s : State) (i : Nat) : Word := s.reg sp - BitVec.ofNat 32 (4 * (i + 1))

/-- Argument `i`, counting from 0, of a procedure just entered: the topmost element is the first (R190). -/
def argument (s : State) (i : Nat) : Answer Word := memRead s (stackSlot s i)

/-- The return of a procedure, `JMP(LP)` (R192). -/
def procedureReturn : Instr := .jmp lp 31

/-- What a procedure entered in `s` owes its caller when it has returned in `t`: `pc` at the address LP held, every
register but R0 unaltered (R191, R192). -/
def keepsLinkage (s t : State) : Prop :=
  t.pc = s.reg lp ∧ ∀ r : Reg, r ≠ 0 → t.reg r = s.reg r

/-- The pushes of a call, the last argument first; `args` names the registers that hold the arguments, the first
argument first (R190, R193). -/
def pushArguments (args : List Reg) : List Instr :=
  args.reverse.flatMap fun ra => [.addc sp 4 sp, .st ra (BitVec.ofInt 16 (-4)) sp]

/-- The call sequence of R193 for a procedure at `f`, written at address `at_`, with its arguments in registers: the
pushes, `BR(F, LP)`, `DEALLOCATE(n)`; none where the assembler cannot encode it. -/
def callSequence (at_ : Word) (args : List Reg) (f : Word) : Option (List Instr) :=
  match expand (at_ + BitVec.ofNat 32 (8 * args.length)) (.brLinked f lp), expand at_ (.deallocate args.length) with
  | some call, some clean => some (pushArguments args ++ call ++ clean)
  | _, _ => none

end Sys2Proof.Machine
end

