-- ==== Sys2Proof/Tests/Slice0.lean ====
section
/-! SUPPORT. The model's own tests. Words and results come from the vectors of 95_test_vectors.md or are worked out by
hand from the rule named; the theorems test_witness_* show that the hypotheses of the statements can be met. -/

namespace Sys2Proof.Tests

open Sys2Proof.Machine

/-! ### Helpers -/

/-- A small state: user mode at address 0x100, the given registers, the given words in memory. -/
def start (regs : List (Reg × Word)) (words : List (Word × Word)) : State :=
  let s := (State.reset.setMode .user).setPc 0x100
  let s := regs.foldl (fun s rv => s.setReg rv.1 rv.2) s
  s.setMem (words.foldl (fun m aw => m.writeWord .little aw.1.toNat aw.2) s.mem)

/-- The same state in supervisor mode. -/
def super (s : State) : State := s.setMode .supervisor

/-- The same state with parameters that refuse what the spec lets a platform refuse, and memory below 0x5000 only. -/
def strict (s : State) : State :=
  { s with cfg := { s.cfg with misalignedData := .refuse, misalignedPc := .refuse, privExec := .refuse,
                               regions := [⟨0, 0x5000⟩] } }

/-- The same state without the optional opcodes. -/
def bare (s : State) : State := { s with cfg := { s.cfg with optional := ⟨false, false, false, false⟩ } }

/-- The same state with an input irq that has these samples and then stays low. -/
def withIrq (s : State) (samples : List Bool) : State := { s with irq := ⟨samples, .repeating []⟩ }

/-- The same state with an input irq that stays high. -/
def irqStuck (s : State) : State := { s with irq := ⟨[], .repeating [true]⟩ }

/-- The same state where DIV_CORNER is refuse. -/
def noCorner (s : State) : State := { s with cfg := { s.cfg with divCorner := .refuse } }

/-- The same state where PRIV_EXEC is the platform's own step function. -/
def ownPriv (s : State) : State := { s with cfg := { s.cfg with privExec := .platform } }

/-- The next state exists and is as `p` says. -/
def holds (r : Result) (p : State → Bool) : Bool :=
  match r with
  | .next t => p t
  | _ => false

/-- The reason of a fault. -/
def faultOf (r : Result) : Option Fault :=
  match r with
  | .fault f => some f
  | _ => none

/-- The reason of a refusal. -/
def refusalOf (r : Result) : Option Refusal :=
  match r with
  | .refused f => some f
  | _ => none

/-- What the decoder gives for a word, none where it rejects. -/
def decoded (w : Word) : Option Instr :=
  match decode w with
  | .ok i => some i
  | .error _ => none

/-! ### Decoding: a word for every constructor (95_test_vectors.md 2.1, or by hand from R61 to R67) -/

theorem test_decode_add : decoded 0x80611000 = some (.add 1 2 3) ∧ encode (.add 1 2 3) = 0x80611000 := by
  decide
theorem test_decode_sub : decoded 0x84C42800 = some (.sub 4 5 6) ∧ encode (.sub 4 5 6) = 0x84C42800 := by
  decide
theorem test_decode_mul : decoded 0x88611000 = some (.mul 1 2 3) ∧ encode (.mul 1 2 3) = 0x88611000 := by
  decide
theorem test_decode_div : decoded 0x8D8A5800 = some (.div 10 11 12) ∧ encode (.div 10 11 12) = 0x8D8A5800 := by
  decide
theorem test_decode_cmpeq : decoded 0x90611000 = some (.cmpeq 1 2 3) ∧ encode (.cmpeq 1 2 3) = 0x90611000 := by
  decide
theorem test_decode_cmplt : decoded 0x94611000 = some (.cmplt 1 2 3) ∧ encode (.cmplt 1 2 3) = 0x94611000 := by
  decide
theorem test_decode_cmple : decoded 0x98611000 = some (.cmple 1 2 3) ∧ encode (.cmple 1 2 3) = 0x98611000 := by
  decide
theorem test_decode_and : decoded 0xA0611000 = some (.and 1 2 3) ∧ encode (.and 1 2 3) = 0xA0611000 := by
  decide
theorem test_decode_or : decoded 0xA4611000 = some (.or 1 2 3) ∧ encode (.or 1 2 3) = 0xA4611000 := by
  decide
theorem test_decode_xor : decoded 0xA8611000 = some (.xor 1 2 3) ∧ encode (.xor 1 2 3) = 0xA8611000 := by
  decide
theorem test_decode_shl : decoded 0xB0611000 = some (.shl 1 2 3) ∧ encode (.shl 1 2 3) = 0xB0611000 := by
  decide
theorem test_decode_shr : decoded 0xB4611000 = some (.shr 1 2 3) ∧ encode (.shr 1 2 3) = 0xB4611000 := by
  decide
theorem test_decode_sra : decoded 0xB9274000 = some (.sra 7 8 9) ∧ encode (.sra 7 8 9) = 0xB9274000 := by
  decide
theorem test_decode_addc : decoded 0xC3BD0004 = some (.addc sp 4 sp) ∧ encode (.addc sp 4 sp) = 0xC3BD0004 := by
  decide
theorem test_decode_subc : decoded 0xC7BD0004 = some (.subc sp 4 sp) ∧ encode (.subc sp 4 sp) = 0xC7BD0004 := by
  decide
theorem test_decode_mulc : decoded 0xC883FFFE = some (.mulc 3 0xFFFE 4) ∧ encode (.mulc 3 0xFFFE 4) = 0xC883FFFE := by
  decide
theorem test_decode_cmplec : decoded 0xD841000A = some (.cmplec 1 10 2) ∧ encode (.cmplec 1 10 2) = 0xD841000A := by
  decide
theorem test_decode_xorc : decoded 0xE821FFFF = some (.xorc 1 0xFFFF 1) ∧ encode (.xorc 1 0xFFFF 1) = 0xE821FFFF := by
  decide
theorem test_decode_shlc : decoded 0xF0210002 = some (.shlc 1 2 1) ∧ encode (.shlc 1 2 1) = 0xF0210002 := by
  decide
theorem test_decode_ld : decoded 0x6041FFFC = some (.ld 1 0xFFFC 2) ∧ encode (.ld 1 0xFFFC 2) = 0x6041FFFC := by
  decide
theorem test_decode_st : decoded 0x64410008 = some (.st 2 8 1) ∧ encode (.st 2 8 1) = 0x64410008 := by
  decide
theorem test_decode_jmp : decoded 0x6FFC0000 = some (.jmp lp 31) ∧ encode (.jmp lp 31) = 0x6FFC0000 := by
  decide
theorem test_decode_beq : decoded 0x74410003 = some (.beq 1 3 2) ∧ encode (.beq 1 3 2) = 0x74410003 := by
  decide
theorem test_decode_bne : decoded 0x7BE1FFFE = some (.bne 1 0xFFFE 31) ∧ encode (.bne 1 0xFFFE 31) = 0x7BE1FFFE := by
  decide
theorem test_decode_ldr : decoded 0x7CBF0002 = some (.ldr 2 5) ∧ encode (.ldr 2 5) = 0x7CBF0002 := by
  decide
theorem test_decode_priv : decoded 0x03FFFFFF = some (.priv 0x3FFFFFF) ∧ encode (.priv 0x3FFFFFF) = 0x03FFFFFF := by
  decide
theorem test_decode_divc : decoded 0xCC41FFF9 = some (.divc 1 0xFFF9 2) ∧ encode (.divc 1 0xFFF9 2) = 0xCC41FFF9 := by
  decide
theorem test_decode_cmpeqc : decoded 0xD041FFFF = some (.cmpeqc 1 0xFFFF 2) ∧ encode (.cmpeqc 1 0xFFFF 2) = 0xD041FFFF := by
  decide
theorem test_decode_cmpltc : decoded 0xD4830007 = some (.cmpltc 3 7 4) ∧ encode (.cmpltc 3 7 4) = 0xD4830007 := by
  decide
theorem test_decode_andc : decoded 0xE041FF00 = some (.andc 1 0xFF00 2) ∧ encode (.andc 1 0xFF00 2) = 0xE041FF00 := by
  decide
theorem test_decode_orc : decoded 0xE44100FF = some (.orc 1 0x00FF 2) ∧ encode (.orc 1 0x00FF 2) = 0xE44100FF := by
  decide
theorem test_decode_shrc : decoded 0xF441001F = some (.shrc 1 31 2) ∧ encode (.shrc 1 31 2) = 0xF441001F := by
  decide
theorem test_decode_srac : decoded 0xF8C50004 = some (.srac 5 4 6) ∧ encode (.srac 5 4 6) = 0xF8C50004 := by
  decide

/-- One word bit by bit: opcode, Rc, Ra, Rb, and eleven unused bits (R61). -/
theorem test_decode_bits_register_format :
    decoded 0b100001_00110_00100_00101_00000000000 = some (.sub 4 5 6) := by decide

/-- One word bit by bit: opcode, Rc, Ra, literal (R62, R64). -/
theorem test_decode_bits_literal_format :
    decoded 0b110010_00100_00011_1111111111111110 = some (.mulc 3 0xFFFE 4) ∧
    decoded 0b011001_00010_00001_0000000000001000 = some (.st 2 8 1) := by decide

/-- Bits without a use are ignored (R71). -/
theorem test_decode_unused_bits :
    decoded 0x806117FF = some (.add 1 2 3) ∧ decoded 0x6C21BEEF = some (.jmp 1 1) ∧
    decoded 0x7CA00002 = some (.ldr 2 5) := by decide

/-- Words with unassigned opcodes (R72). -/
theorem test_decode_rejects_unassigned :
    ([0x04000000, 0x5C000000, 0x68000000, 0x70000000, 0x9C000000, 0xAC000000, 0xBC000000, 0xDC000000, 0xEC000000,
      0xFC000000, 0xFFFFFFFF].map decoded).all (·.isNone) = true := by decide

/-- Three bytes are no instruction; four in either byte order are (R40, R60). -/
theorem test_decode_bytes :
    (match decodeBytes .little [0x00, 0x10, 0x61] with | .error e => e == .tooFewBytes | .ok _ => false) = true ∧
    (match decodeBytes .little [0x00, 0x10, 0x61, 0x80, 0x55] with
      | .ok r => r == (.add 1 2 3, [0x55]) | .error _ => false) = true ∧
    (match decodeBytes .big [0x80, 0x61, 0x10, 0x00] with
      | .ok r => r == (.add 1 2 3, []) | .error _ => false) = true := by decide

theorem test_decode_table_word :
    decodeTableWord 32 0x80611000 = some (.add 1 2 3) ∧ decodeTableWord 32 0x04000000 = none := by decide

/-! ### Well-formedness: an ill-formed term for each check, refused -/

theorem test_wf_refuses_absent_mul : (Instr.mul 1 2 3).wellFormed (bare State.reset).cfg = false := by decide
theorem test_wf_refuses_absent_div : (Instr.div 1 2 3).wellFormed (bare State.reset).cfg = false := by decide
theorem test_wf_refuses_absent_mulc : (Instr.mulc 1 2 3).wellFormed (bare State.reset).cfg = false := by decide
theorem test_wf_refuses_absent_divc : (Instr.divc 1 2 3).wellFormed (bare State.reset).cfg = false := by decide
theorem test_wf_refuses_vectors : ({ Config.atReset with vecReset := 2 } : Config).wellFormed = false ∧
    ({ Config.atReset with vecIllop := 1 } : Config).wellFormed = false ∧
    ({ Config.atReset with vecIrq := 3 } : Config).wellFormed = false ∧ Config.atReset.wellFormed = true := by decide
theorem test_wf_refuses_literals : literalFits 32768 = false ∧ literalFits (-32769) = false ∧
    literalFits 32767 = true ∧ literalFits (-32768) = true := by decide
theorem test_wf_refuses_labels : labelFits 0x100 0x106 = false ∧ labelFits 0x100 0x20104 = false ∧
    labelFits 0x20100 0x100 = false ∧ labelFits 0x100 0x20100 = true ∧ labelFits 0x20000 4 = true := by decide
theorem test_wf_refuses_addresses : addressFits 0x8000 = false ∧ addressFits 0xFFFF7FFC = false ∧
    addressFits 0x7FFF = true ∧ addressFits 0xFFFF8000 = true := by decide
theorem test_wf_refuses_slots : slotsFit 8192 = false ∧ slotsFit 8191 = true := by decide

/-! ### Register-form results (95_test_vectors.md 2.2) -/

theorem test_add_wraps_signed : holds (exec (.add 1 2 3) (start [(1, 0x7FFFFFFF), (2, 0x1)] []))
    (fun t => t.reg 3 == 0x80000000 && t.pc == 0x104) = true := by decide
theorem test_add_loses_carry : holds (exec (.add 1 2 3) (start [(1, 0xFFFFFFFF), (2, 0x1)] []))
    (fun t => t.reg 3 == 0x0 && t.pc == 0x104) = true := by decide
theorem test_sub_wraps_borrow : holds (exec (.sub 1 2 3) (start [(1, 0x0), (2, 0x1)] []))
    (fun t => t.reg 3 == 0xFFFFFFFF && t.pc == 0x104) = true := by decide
theorem test_sub_wraps_signed : holds (exec (.sub 1 2 3) (start [(1, 0x80000000), (2, 0x1)] []))
    (fun t => t.reg 3 == 0x7FFFFFFF && t.pc == 0x104) = true := by decide
theorem test_mul_low_word : holds (exec (.mul 1 2 3) (start [(1, 0x12345678), (2, 0x9ABCDEF0)] []))
    (fun t => t.reg 3 == 0x242D2080 && t.pc == 0x104) = true := by decide
theorem test_mul_negative : holds (exec (.mul 1 2 3) (start [(1, 0x7), (2, 0xFFFFFFFD)] []))
    (fun t => t.reg 3 == 0xFFFFFFEB && t.pc == 0x104) = true := by decide
theorem test_div_toward_zero : holds (exec (.div 1 2 3) (start [(1, 0xFFFFFFF9), (2, 0x2)] []))
    (fun t => t.reg 3 == 0xFFFFFFFD && t.pc == 0x104) = true := by decide
theorem test_div_least_by_one : holds (exec (.div 1 2 3) (start [(1, 0x80000000), (2, 0x1)] []))
    (fun t => t.reg 3 == 0x80000000 && t.pc == 0x104) = true := by decide
theorem test_and_bits : holds (exec (.and 1 2 3) (start [(1, 0xF0F0F0F0), (2, 0xFF00FF00)] []))
    (fun t => t.reg 3 == 0xF000F000 && t.pc == 0x104) = true := by decide
theorem test_or_bits : holds (exec (.or 1 2 3) (start [(1, 0xF0F0F0F0), (2, 0xFF00FF00)] []))
    (fun t => t.reg 3 == 0xFFF0FFF0 && t.pc == 0x104) = true := by decide
theorem test_xor_bits : holds (exec (.xor 1 2 3) (start [(1, 0xF0F0F0F0), (2, 0xFF00FF00)] []))
    (fun t => t.reg 3 == 0xFF00FF0 && t.pc == 0x104) = true := by decide
theorem test_cmpeq_equal : holds (exec (.cmpeq 1 2 3) (start [(1, 0x5), (2, 0x5)] []))
    (fun t => t.reg 3 == 0x1 && t.pc == 0x104) = true := by decide
theorem test_cmpeq_unequal : holds (exec (.cmpeq 1 2 3) (start [(1, 0x5), (2, 0x6)] []))
    (fun t => t.reg 3 == 0x0 && t.pc == 0x104) = true := by decide
theorem test_cmplt_signed : holds (exec (.cmplt 1 2 3) (start [(1, 0xFFFFFFFF), (2, 0x0)] []))
    (fun t => t.reg 3 == 0x1 && t.pc == 0x104) = true := by decide
theorem test_cmplt_equal : holds (exec (.cmplt 1 2 3) (start [(1, 0x3), (2, 0x3)] []))
    (fun t => t.reg 3 == 0x0 && t.pc == 0x104) = true := by decide
theorem test_cmple_equal : holds (exec (.cmple 1 2 3) (start [(1, 0x3), (2, 0x3)] []))
    (fun t => t.reg 3 == 0x1 && t.pc == 0x104) = true := by decide
theorem test_cmple_greatest_least : holds (exec (.cmple 1 2 3) (start [(1, 0x7FFFFFFF), (2, 0x80000000)] []))
    (fun t => t.reg 3 == 0x0 && t.pc == 0x104) = true := by decide
theorem test_shl_by_31 : holds (exec (.shl 1 2 3) (start [(1, 0x1), (2, 0x1F)] []))
    (fun t => t.reg 3 == 0x80000000 && t.pc == 0x104) = true := by decide
theorem test_shl_by_33 : holds (exec (.shl 1 2 3) (start [(1, 0xFFFFFFFF), (2, 0x21)] []))
    (fun t => t.reg 3 == 0xFFFFFFFE && t.pc == 0x104) = true := by decide
theorem test_shr_by_31 : holds (exec (.shr 1 2 3) (start [(1, 0x80000000), (2, 0x1F)] []))
    (fun t => t.reg 3 == 0x1 && t.pc == 0x104) = true := by decide
theorem test_shr_by_32 : holds (exec (.shr 1 2 3) (start [(1, 0x80000000), (2, 0x20)] []))
    (fun t => t.reg 3 == 0x80000000 && t.pc == 0x104) = true := by decide
theorem test_sra_by_36 : holds (exec (.sra 1 2 3) (start [(1, 0x80000000), (2, 0x24)] []))
    (fun t => t.reg 3 == 0xF8000000 && t.pc == 0x104) = true := by decide
theorem test_sra_positive : holds (exec (.sra 1 2 3) (start [(1, 0x7FFFFFFF), (2, 0x4)] []))
    (fun t => t.reg 3 == 0x7FFFFFF && t.pc == 0x104) = true := by decide

/-- Sources are read before the destination is written; R31 discards a write and reads 0 (R22, R24). -/
theorem test_register_corners :
    holds (exec (.add 1 1 1) (start [(1, 5)] [])) (fun t => t.reg 1 == 0xA) = true ∧
    holds (exec (.add 1 2 31) (start [(1, 1), (2, 2)] [])) (fun t => t.regs == (start [(1, 1), (2, 2)] []).regs) =
      true ∧
    holds (exec (.sub 31 1 2) (start [(1, 1)] [])) (fun t => t.reg 2 == 0xFFFFFFFF) = true := by decide

/-- A corner of DIV completes, with whatever value (R106, log entry 9). -/
theorem test_div_corner_completes :
    holds (exec (.div 1 2 3) (start [(1, 5)] [])) (fun t => t.pc == 0x104 && t.reg 1 == 5) = true := by decide

/-- The corners stop by name where DIV_CORNER is refuse, and nothing else does (R106, R125). -/
theorem test_div_corners_refused :
    refusalOf (exec (.div 1 2 3) (noCorner (start [(1, 5)] []))) = some .divisionByZero ∧
    refusalOf (exec (.div 1 2 3) (noCorner (start [(1, 0x80000000), (2, 0xFFFFFFFF)] []))) = some .quotientOverflow ∧
    refusalOf (exec (.divc 1 0 3) (noCorner (start [(1, 5)] []))) = some .divisionByZero ∧
    holds (exec (.divc 1 0xFFF9 2) (noCorner (start [(1, 100)] []))) (fun t => t.reg 2 == 0xFFFFFFF2) = true := by
  decide

/-! ### Literal-form results (95_test_vectors.md 2.3) -/

theorem test_addc_minus_one : holds (exec (.addc 1 0xFFFF 2) (start [(1, 0x5)] []))
    (fun t => t.reg 2 == 0x4 && t.pc == 0x104) = true := by decide
theorem test_addc_least_literal : holds (exec (.addc 1 0x8000 2) (start [(1, 0x0)] []))
    (fun t => t.reg 2 == 0xFFFF8000 && t.pc == 0x104) = true := by decide
theorem test_subc_least_literal : holds (exec (.subc 1 0x8000 2) (start [(1, 0x0)] []))
    (fun t => t.reg 2 == 0x8000 && t.pc == 0x104) = true := by decide
theorem test_mulc_negative : holds (exec (.mulc 1 0xFFFE 2) (start [(1, 0x3)] []))
    (fun t => t.reg 2 == 0xFFFFFFFA && t.pc == 0x104) = true := by decide
theorem test_divc_negative : holds (exec (.divc 1 0xFFF9 2) (start [(1, 0x64)] []))
    (fun t => t.reg 2 == 0xFFFFFFF2 && t.pc == 0x104) = true := by decide
theorem test_andc_extends : holds (exec (.andc 1 0xFF00 2) (start [(1, 0x12345678)] []))
    (fun t => t.reg 2 == 0x12345600 && t.pc == 0x104) = true := by decide
theorem test_orc_bits : holds (exec (.orc 1 0xFF 2) (start [(1, 0x12345678)] []))
    (fun t => t.reg 2 == 0x123456FF && t.pc == 0x104) = true := by decide
theorem test_xorc_complements : holds (exec (.xorc 1 0xFFFF 2) (start [(1, 0x12345678)] []))
    (fun t => t.reg 2 == 0xEDCBA987 && t.pc == 0x104) = true := by decide
theorem test_cmpeqc_minus_one : holds (exec (.cmpeqc 1 0xFFFF 2) (start [(1, 0xFFFFFFFF)] []))
    (fun t => t.reg 2 == 0x1 && t.pc == 0x104) = true := by decide
theorem test_cmpeqc_extends : holds (exec (.cmpeqc 1 0xFFFF 2) (start [(1, 0xFFFF)] []))
    (fun t => t.reg 2 == 0x0 && t.pc == 0x104) = true := by decide
theorem test_cmpltc_signed : holds (exec (.cmpltc 1 0xFFFF 2) (start [(1, 0xFFFFFFFE)] []))
    (fun t => t.reg 2 == 0x1 && t.pc == 0x104) = true := by decide
theorem test_cmpltc_zero : holds (exec (.cmpltc 1 0xFFFF 2) (start [(1, 0x0)] []))
    (fun t => t.reg 2 == 0x0 && t.pc == 0x104) = true := by decide
theorem test_cmplec_equal : holds (exec (.cmplec 1 0xFFFF 2) (start [(1, 0xFFFFFFFF)] []))
    (fun t => t.reg 2 == 0x1 && t.pc == 0x104) = true := by decide
theorem test_shlc_minus_one : holds (exec (.shlc 1 0xFFFF 2) (start [(1, 0x1)] []))
    (fun t => t.reg 2 == 0x80000000 && t.pc == 0x104) = true := by decide
theorem test_shlc_by_32 : holds (exec (.shlc 1 0x20 2) (start [(1, 0xABCD1234)] []))
    (fun t => t.reg 2 == 0xABCD1234 && t.pc == 0x104) = true := by decide
theorem test_shrc_minus_one : holds (exec (.shrc 1 0xFFFF 2) (start [(1, 0x80000000)] []))
    (fun t => t.reg 2 == 0x1 && t.pc == 0x104) = true := by decide
theorem test_srac_minus_one : holds (exec (.srac 1 0xFFFF 2) (start [(1, 0x80000000)] []))
    (fun t => t.reg 2 == 0xFFFFFFFF && t.pc == 0x104) = true := by decide
theorem test_srac_by_32 : holds (exec (.srac 1 0x20 2) (start [(1, 0x80000000)] []))
    (fun t => t.reg 2 == 0x80000000 && t.pc == 0x104) = true := by decide

/-! ### Loads and stores (95_test_vectors.md 2.4) -/

theorem test_ld_negative_literal : holds (exec (.ld 1 0xFFFC 2) (start [(1, 0x1004)] [(0x1000, 0xCAFEBABE)]))
    (fun t => t.reg 2 == 0xCAFEBABE && t.pc == 0x104) = true := by decide
theorem test_ld_top_and_base_is_destination :
    holds (exec (.ld 31 0xFFFC 2) (start [] [(0xFFFFFFFC, 7)])) (fun t => t.reg 2 == 7) = true ∧
    holds (exec (.ld 1 0 1) (start [(1, 0x2000)] [(0x2000, 0x3000)])) (fun t => t.reg 1 == 0x3000) = true := by decide
theorem test_ld_stops :
    refusalOf (exec (.ld 1 0 2) (strict (start [(1, 0x1002)] []))) = some (.misalignedData 0x1002) ∧
    faultOf (exec (.ld 1 0 31) (strict (start [(1, 0x5000)] []))) = some (.noMemory 0x5000) ∧
    holds (exec (.ld 1 0 2) (start [(1, 0x1002)] [(0x1000, 9)])) (fun t => t.reg 2 == 9) = true := by decide
theorem test_st_stores : holds (exec (.st 2 8 1) (start [(1, 0x1000), (2, 0xCAFEBABE)] []))
    (fun t => t.mem == [(0x1008, 0xBE), (0x1009, 0xBA), (0x100A, 0xFE), (0x100B, 0xCA)] && t.pc == 0x104) =
      true := by decide
theorem test_st_zero_and_misaligned :
    holds (exec (.st 31 0 1) (start [(1, 0x1000)] [(0x1000, 5)])) (fun t => t.mem == []) = true ∧
    refusalOf (exec (.st 2 2 1) (strict (start [(1, 0x1000)] []))) = some (.misalignedData 0x1002) ∧
    holds (exec (.st 1 2 1) (start [(1, 0x1000)] [])) (fun t => wordAt t 0x1000 == 0x1000) = true := by decide
theorem test_ldr_relative : holds (exec (.ldr 2 5) (start [] [(0x10C, 0x12345678)]))
    (fun t => t.reg 5 == 0x12345678 && t.pc == 0x104) = true := by decide
theorem test_ldr_reads_itself : holds (step (start [] [(0x100, 0x7CBFFFFF)])) (fun t => t.reg 5 == 0x7CBFFFFF) =
    true := by decide

/-! ### Jumps and branches (95_test_vectors.md 2.5) -/

theorem test_beq_taken_and_not :
    holds (exec (.beq 1 3 2) (start [] [])) (fun t => t.reg 2 == 0x104 && t.pc == 0x110) = true ∧
    holds (exec (.beq 1 3 2) (start [(1, 5)] [])) (fun t => t.reg 2 == 0x104 && t.pc == 0x104) = true := by decide
theorem test_beq_tests_old_register_and_wraps :
    holds (exec (.beq 1 2 1) (start [] [])) (fun t => t.reg 1 == 0x104 && t.pc == 0x10C) = true ∧
    holds (exec (.beq 31 1 31) ((start [] []).setPc 0xFFFFFFFC)) (fun t => t.pc == 4) = true := by decide
theorem test_bne_backward_and_not_taken :
    holds (exec (.bne 1 0xFFFE 31) (start [(1, 5)] [])) (fun t => t.pc == 0xFC) = true ∧
    holds (exec (.bne 1 0xFFFE 31) (start [] [])) (fun t => t.pc == 0x104) = true := by decide
theorem test_bne_tests_all_bits : holds (exec (.bne 1 0x7FFF 31) (start [(1, 0x80000000)] []))
    (fun t => t.pc == 0x20100) = true := by decide
theorem test_jmp_old_target_and_modes :
    holds (exec (.jmp 1 1) (start [(1, 0x200)] [])) (fun t => t.reg 1 == 0x104 && t.pc == 0x200) = true ∧
    holds (exec (.jmp 31 31) (super (start [] []))) (fun t => t.pc == 0 && t.mode == .user) = true ∧
    holds (exec (.jmp 1 31) (super (start [(1, 0x80000100)] []))) (fun t => t.mode == .supervisor) = true ∧
    holds (exec (.jmp 1 31) (start [(1, 0x80000100)] [])) (fun t => t.mode == .user) = true := by decide
theorem test_jmp_misaligned :
    refusalOf (exec (.jmp 1 31) (strict (start [(1, 0x202)] []))) = some (.misalignedJump 0x202) ∧
    holds (exec (.jmp 1 31) (start [(1, 0x202)] [])) (fun t => t.pc == 0x200) = true := by decide

/-! ### Macros (95_test_vectors.md 1.1 and 2.6), at address 0x100 -/

/-- The words a macro at 0x100 stands for. -/
def macroWords (m : Macro) : Option (List Word) := (expand 0x100 m).map (·.map encode)

theorem test_macro_branches :
    macroWords (.beq 1 0x110) = some [0x77E10003] ∧ macroWords (.bf 1 0x110) = some [0x77E10003] ∧
    macroWords (.bne 1 0x110) = some [0x7BE10003] ∧ macroWords (.bt 1 0x110) = some [0x7BE10003] ∧
    macroWords (.brLinked 0x118 lp) = some [0x779F0005] ∧ macroWords (.br 0x118) = some [0x77FF0005] ∧
    macroWords (.jmp lp) = some [0x6FFC0000] := by decide
theorem test_macro_data :
    macroWords (.ld 0x100 1) = some [0x603F0100] ∧ macroWords (.st 1 0x100) = some [0x643F0100] ∧
    macroWords (.ld 0xFFFF8000 1) = some [0x603F8000] ∧ macroWords (.move 1 2) = some [0x8041F800] ∧
    macroWords (.cmove (-1) 0) = some [0xC01FFFFF] ∧ macroWords (.cmove 32768 0) = none := by decide
theorem test_macro_stack :
    macroWords (.push 1) = some [0xC3BD0004, 0x643DFFFC] ∧ macroWords (.pop 2) = some [0x605DFFFC, 0xC7BD0004] ∧
    macroWords (.allocate 2) = some [0xC3BD0008] ∧ macroWords (.deallocate 2) = some [0xC7BD0008] ∧
    macroWords (.allocate 8191) = some [0xC3BD7FFC] ∧ macroWords (.allocate 8192) = none := by decide

/-- The call of program P3 (95_test_vectors.md 3), and the argument its procedure finds (R190, R193). -/
theorem test_call_sequence :
    (callSequence 0x4 [1] 0x40).map (·.map encode) = some [0xC3BD0004, 0x643DFFFC, 0x779F000C, 0xC7BD0004] ∧
    (match argument (start [(29, 0x1004)] [(0x1000, 7)]) 0 with | .next w => w == 7 | _ => false) = true ∧
    encode procedureReturn = 0x6FFC0000 := by decide

/-! ### Traps and privilege (95_test_vectors.md 2.7, T1 to T8) -/

theorem test_priv_in_user_mode : holds (step (start [(30, 0x1234)] []))
    (fun t => t.reg 30 == 0x104 && t.mode == .supervisor && t.pc == 0x80000004) = true := by decide
theorem test_priv_in_supervisor_mode :
    refusalOf (step (strict (super (start [] [])))) = some (.privilegedInstruction 0) ∧
    holds (step (super (start [] []))) (fun t => t.reg 30 == 0x104 && t.pc == 0x80000004) = true := by decide
theorem test_priv_of_the_platform :
    holds (step (ownPriv (super (start [] [])))) (fun t => t.cfg.privExec == .platform) = true ∧
    holds (step (ownPriv (start [] []))) (fun t => t.pc == 0x80000004) = true := by decide
theorem test_unassigned_in_supervisor_mode : holds (step (super (start [] [(0x100, 0x04000000)])))
    (fun t => t.reg 30 == 0x104 && t.mode == .supervisor && t.pc == 0x80000004) = true := by decide
theorem test_absent_mul_traps : holds (step (bare (start [] [(0x100, 0x88611000)])))
    (fun t => t.reg 30 == 0x104 && t.reg 3 == 0 && t.pc == 0x80000004) = true := by decide
theorem test_interrupt_taken : holds (step (withIrq (start [(1, 7)] [(0x100, 0xC0210001)]) [true]))
    (fun t => t.reg 30 == 0x104 && t.reg 1 == 7 && t.pc == 0x80000008 && t.mode == .supervisor && t.irq == ⟨[], .repeating []⟩) =
      true := by decide
theorem test_interrupt_masked : holds (step (withIrq (super (start [(1, 7)] [(0x100, 0xC0210001)])) [true]))
    (fun t => t.reg 1 == 8 && t.pc == 0x104 && t.mode == .supervisor) = true := by decide
theorem test_interrupt_before_fetch :
    holds (step (withIrq (start [] [(0x100, 0x04000000)]) [true])) (fun t => t.pc == 0x80000008) = true ∧
    holds (step (withIrq (strict ((start [] []).setPc 0x6000)) [true])) (fun t => t.pc == 0x80000008) = true := by
  decide
theorem test_interrupt_input_goes_on :
    irqNow (irqLater (irqLater (irqStuck (start [] [])).irq)) = true ∧
    irqLater ⟨[], .repeating [true, false]⟩ = ⟨[], .repeating [false, true]⟩ ∧
    irqLater ⟨[], .free 7⟩ = ⟨[], .free 8⟩ ∧
    holds (step (irqStuck (start [] []))) (fun t => t.pc == 0x80000008 && t.irq == ⟨[], .repeating [true]⟩) = true := by
  decide
theorem test_fetch_without_memory : faultOf (step (strict ((start [] []).setPc 0x6000))) = some (.noMemory 0x6000) := by
  decide
theorem test_trap_link_wraps : holds (step ((start [] []).setPc 0xFFFFFFFC)) (fun t => t.reg 30 == 0) = true := by
  decide

/-! ### Reset, fetch and the host's placement of a word -/

theorem test_reset : State.reset.pc = 0x80000000 ∧ State.reset.mode = .supervisor ∧ State.reset.mem = [] := by decide
theorem test_first_step_after_reset : holds (step (State.reset.withFetchWord 32 0x77FF0007))
    (fun t => t.pc == 0x80000020 && t.mode == .supervisor) = true := by decide
theorem test_placed_word_runs_despite_irq :
    holds (step ((withIrq (start [] []) [true, true]).withFetchWord 32 0xC03F0001))
      (fun t => t.reg 1 == 1 && t.irq == ⟨[true], .repeating []⟩) = true := by decide
theorem test_big_endian_fetch :
    holds (step ({ State.reset with cfg := { Config.atReset with byteOrder := .big },
                                    mem := [(0x80000000, 0xC0), (0x80000001, 0x3F), (0x80000003, 0x09)] }))
      (fun t => t.reg 1 == 9) = true := by decide
theorem test_image_loads : holds (step (State.reset.load [(0x80000003, 0x77), (0x80000002, 0xFF), (0x80000000, 0x07)]))
    (fun t => t.pc == 0x80000020) = true := by decide

/-! ### The end of a run, and the control-signal table -/

theorem test_end_of_run : endOfRun (start [] [(0x100, 0x77FFFFFF)]) = true ∧ endOfRun (start [] []) = false ∧
    endOfRun (withIrq (start [] [(0x100, 0x77FFFFFF)]) [true]) = false := by decide

/-- What stands on the wires that do not matter. -/
def noise : DontCare := ⟨.plus, true, 2, true, true, true, 0xFFFFFFFF⟩

theorem test_control_table :
    holds (controlStep noise (start [(1, 5), (2, 6)] [(0x100, 0x80611000)])) (fun t => t.reg 3 == 11) = true ∧
    holds (controlStep noise (start [] [(0x100, 0x74410003)])) (fun t => t.pc == 0x110 && t.reg 2 == 0x104) = true ∧
    holds (controlStep noise (start [] [(0x100, 0x7CBFFFFF)])) (fun t => t.reg 5 == 0x7CBFFFFF) = true ∧
    holds (controlStep noise (start [(1, 9)] [(0x100, 0x643F0100)])) (fun t => wordAt t 0x100 == 9) = true := by decide

/-! ### The hypotheses of the statements can be met -/

theorem test_witness_EncodeInvertsDecodeOnCanonicalWords :
    canonicalWord 0x7CBF0002 = true ∧
    decoded 0x7CBF0002 = some (.ldr 2 5) ∧
    canonicalWord 0x7CA00002 = false := by decide
theorem test_witness_UnusedBitsAreIgnored :
    (0x80611000 : Word) ≠ 0x806117FF ∧
    (0x80611000 : Word).extractLsb' 30 2 = 0b10#2 ∧
    (0x80611000 : Word).extractLsb' 11 21 = (0x806117FF : Word).extractLsb' 11 21 ∧
    opcodeField 0x6C21BEEF = 0x1B#6 ∧
    (0x6C21BEEF : Word).extractLsb' 16 16 = (0x6C210000 : Word).extractLsb' 16 16 ∧
    opcodeField 0x7CA00002 = 0x1F#6 ∧
    (0x7CA00002 : Word).extractLsb' 21 11 = (0x7CBF0002 : Word).extractLsb' 21 11 ∧
    (0x7CA00002 : Word).extractLsb' 0 16 = (0x7CBF0002 : Word).extractLsb' 0 16 := by decide
theorem test_witness_EveryOpcodeIsAssignedOrRejected :
    opcodeField 0x04000000 ∈ unassignedOpcodes ∧
    opcodeField 0xFFFFFFFF ∈ unassignedOpcodes ∧
    opcodeField 0x00000000 ∉ unassignedOpcodes ∧
    opcodeField 0xFBFFFFFF ∉ unassignedOpcodes := by decide
theorem test_witness_LabelLiteralReachesLabel :
    labelLiteral (start [] []).pc 0x20100 = some 0x7FFF ∧
    labelLiteral (start [] []).pc 0xFFFE0104 = some 0x8000 ∧
    labelLiteral (start [] []).pc 0x106 = none := by decide
theorem test_witness_RegisterThirtyOneIsZero :
    (0 : Reg) ≠ 31 ∧ (30 : Reg) ≠ 31 ∧ (31 : Reg) ≠ 30 := by decide
theorem test_witness_ResetStartsInSupervisorAtVector :
    Config.atReset.irqInSupervisor = false := by decide
theorem test_witness_InvariantHoldsAtReset :
    Config.atReset.wellFormed = true := by decide
theorem test_witness_AddWraps :
    opcodeField 0x80611000 = 0x20#6 ∧
    (Instr.add 1 2 3).wellFormed Config.atReset = true ∧
    opcodeField 0xC3BD0004 = 0x30#6 ∧
    (Instr.addc sp 4 sp).wellFormed Config.atReset = true := by decide
theorem test_witness_SubWraps :
    opcodeField 0x84C42800 = 0x21#6 ∧
    (Instr.sub 4 5 6).wellFormed Config.atReset = true ∧
    opcodeField 0xC7BD0004 = 0x31#6 ∧
    (Instr.subc sp 4 sp).wellFormed Config.atReset = true := by decide
theorem test_witness_MulKeepsLowWord :
    opcodeField 0x88611000 = 0x22#6 ∧
    (Instr.mul 1 2 3).wellFormed Config.atReset = true ∧
    opcodeField 0xC883FFFE = 0x32#6 ∧
    (Instr.mulc 3 0xFFFE 4).wellFormed Config.atReset = true := by decide
theorem test_witness_CmpltIsSigned :
    opcodeField 0x94611000 = 0x25#6 ∧
    (Instr.cmplt 1 2 3).wellFormed Config.atReset = true ∧
    opcodeField 0xD4830007 = 0x35#6 ∧
    (Instr.cmpltc 3 7 4).wellFormed Config.atReset = true := by decide
theorem test_witness_CmpleIsSignedOrEqual :
    opcodeField 0x98611000 = 0x26#6 ∧
    (Instr.cmple 1 2 3).wellFormed Config.atReset = true ∧
    opcodeField 0xD841000A = 0x36#6 ∧
    (Instr.cmplec 1 10 2).wellFormed Config.atReset = true := by decide
theorem test_witness_ShlMultipliesByPowerOfTwo :
    opcodeField 0xB0611000 = 0x2C#6 ∧
    (Instr.shl 1 2 3).wellFormed Config.atReset = true ∧
    opcodeField 0xF0210002 = 0x3C#6 ∧
    (Instr.shlc 1 2 1).wellFormed Config.atReset = true := by decide
theorem test_witness_ShrDividesUnsigned :
    opcodeField 0xB4611000 = 0x2D#6 ∧
    (Instr.shr 1 2 3).wellFormed Config.atReset = true ∧
    opcodeField 0xF441001F = 0x3D#6 ∧
    (Instr.shrc 1 31 2).wellFormed Config.atReset = true := by decide
theorem test_witness_SraDividesTowardMinusInfinity :
    opcodeField 0xB9274000 = 0x2E#6 ∧
    (Instr.sra 7 8 9).wellFormed Config.atReset = true ∧
    opcodeField 0xF8C50004 = 0x3E#6 ∧
    (Instr.srac 5 4 6).wellFormed Config.atReset = true := by decide
theorem test_witness_DivTruncatesTowardZero :
    opcodeField 0x8D8A5800 = 0x23#6 ∧
    (Instr.div 10 11 12).wellFormed Config.atReset = true ∧
    opcodeField 0xCC41FFF9 = 0x33#6 ∧
    (Instr.divc 1 0xFFF9 2).wellFormed Config.atReset = true ∧
    (start [(1, 0x80000000), (2, 1)] []).reg 2 ≠ 0 ∧
    (start [] []).cfg.divCorner = .total ∧
    (noCorner (start [] [])).cfg.divCorner = .refuse ∧
    (Instr.div 10 11 12).wellFormed (noCorner (start [] [])).cfg = true ∧
    (start [] []).cfg.divCorner = .total ∧ (start [] []).reg 1 = 0 ∧
    ((start [(1, 0x80000001)] []).reg 1).toInt = -2 ^ 31 + 1 ∧
    ((start [(1, 0x80000000)] []).reg 1).toInt = -2 ^ 31 ∧
    (0xFFFF : Lit).toInt = -1 ∧ (0xFFFE : Lit).toInt = -2 ∧ (0 : Lit).toInt = 0 := by decide
/-- Off the corners by one, a division has a result even where DIV_CORNER is refuse. -/
theorem test_witness_DivisionHasResult :
    DivisionHasResult (noCorner (start [] [])).cfg (-2 ^ 31 + 1) (-1) ∧
    DivisionHasResult (noCorner (start [] [])).cfg (-2 ^ 31) (-2) ∧
    DivisionHasResult (start [] []).cfg (-2 ^ 31) (-1) ∧ DivisionHasResult (start [] []).cfg 1 0 := by
  unfold DivisionHasResult; decide

/-- The irq stays high and is taken in supervisor mode too; and a pattern that is not empty. -/
theorem test_witness_IrqIsUnderNoLaw :
    let s := irqStuck { State.reset with cfg := { Config.atReset with irqInSupervisor := true } }
    (∀ n, irqNow (irqLater^[n] s.irq) = true) ∧ s.cfg.irqInSupervisor = true ∧ ([false] : List Bool) ≠ [] := by
  intro s
  refine ⟨fun n => ?_, by decide, by decide⟩
  have fixed : irqLater s.irq = s.irq := rfl
  rw [Function.iterate_fixed fixed n]
  rfl

theorem test_witness_PlatformPrivilegedInstructionCompletes :
    (ownPriv State.reset).mode = .supervisor ∧ (ownPriv State.reset).cfg.privExec = .platform ∧
    (ownPriv State.reset).mem.wf := by decide


theorem test_witness_AndIsBitwise :
    opcodeField 0xA0611000 = 0x28#6 ∧
    (Instr.and 1 2 3).wellFormed Config.atReset = true ∧
    (start [] []).reg 31 = 0 ∧
    (start [(1, 0xF0F0F0F0), (2, 0xFF00FF00)] []).reg 1 = 0xF0F0F0F0 ∧
    (start [(1, 0xF0F0F0F0), (2, 0xFF00FF00)] []).reg 2 = 0xFF00FF00 := by decide
theorem test_witness_OrIsBitwise :
    opcodeField 0xA4611000 = 0x29#6 ∧
    (Instr.or 1 2 3).wellFormed Config.atReset = true ∧
    (start [] []).reg 31 = 0 ∧
    (start [(1, 0xF0F0F0F0), (2, 0xFF00FF00)] []).reg 1 = 0xF0F0F0F0 ∧
    (start [(1, 0xF0F0F0F0), (2, 0xFF00FF00)] []).reg 2 = 0xFF00FF00 := by decide
theorem test_witness_XorIsBitwise :
    opcodeField 0xA8611000 = 0x2A#6 ∧
    (Instr.xor 1 2 3).wellFormed Config.atReset = true ∧
    (start [(1, 0xF0F0F0F0), (2, 0xFF00FF00)] []).reg 1 = 0xF0F0F0F0 ∧
    (start [(1, 0xF0F0F0F0), (2, 0xFF00FF00)] []).reg 2 = 0xFF00FF00 := by decide
theorem test_witness_AndcIsBitwise :
    opcodeField 0xE041FF00 = 0x38#6 ∧
    (Instr.andc 1 0xFF00 2).wellFormed Config.atReset = true ∧
    (0x7FFF : Lit).getLsbD 15 = false ∧
    (0x8000 : Lit).getLsbD 15 = true ∧
    (start [(1, 0x12345678)] []).reg 1 = 0x12345678 := by decide
theorem test_witness_OrcIsBitwise :
    opcodeField 0xE44100FF = 0x39#6 ∧
    (Instr.orc 1 0x00FF 2).wellFormed Config.atReset = true ∧
    (0x8000 : Lit).getLsbD 15 = true ∧
    (start [(1, 0x12345678)] []).reg 1 = 0x12345678 := by decide
theorem test_witness_XorcIsBitwise :
    opcodeField 0xE821FFFF = 0x3A#6 ∧
    (Instr.xorc 1 0xFFFF 1).wellFormed Config.atReset = true ∧
    (start [(1, 0x12345678)] []).reg 1 = 0x12345678 := by decide
theorem test_witness_CmpeqGivesOneOrZero :
    opcodeField 0x90611000 = 0x24#6 ∧
    (Instr.cmpeq 1 2 3).wellFormed Config.atReset = true ∧
    (start [(1, 5), (2, 5)] []).reg 1 = 5 ∧
    (start [(1, 5), (2, 5)] []).reg 2 = 5 ∧
    (start [(1, 5), (2, 6)] []).reg 1 = 5 ∧
    (start [(1, 5), (2, 6)] []).reg 2 = 6 := by decide
theorem test_witness_CmpeqcGivesOneOrZero :
    opcodeField 0xD041FFFF = 0x34#6 ∧
    (Instr.cmpeqc 1 0xFFFF 2).wellFormed Config.atReset = true ∧
    (start [(1, 0xFFFFFFFF)] []).reg 1 = 0xFFFFFFFF ∧
    (start [(1, 0x0000FFFF)] []).reg 1 = 0x0000FFFF := by decide

/-- The two ends of memory, and a misaligned address where MISALIGNED_DATA is maskLow2. -/
theorem test_witness_LdLoadsWord :
    opcodeField 0x6041FFFC = 0x18#6 ∧ Accessible (start [] []) (baseAddress (start [] []) 31 0) ∧
    Accessible (start [] []) (baseAddress (start [] []) 31 0xFFFC) ∧
    Accessible (start [(1, 0xFFFFFFFF)] []) (baseAddress (start [(1, 0xFFFFFFFF)] []) 1 0) ∧
    ¬ DataAligned (strict (start [] [])) (baseAddress (strict (start [] [])) 31 1) ∧
    DataAligned (strict (start [] [])) (baseAddress (strict (start [] [])) 31 0x5000) ∧
    memValid (strict (start [] [])).cfg (wordAddress (baseAddress (strict (start [] [])) 31 0x5000)) = false ∧
    (start [(29, 0x1004)] [(0x1000, 0xCAFEF00D)]).reg sp = 0x1004 ∧
    memValid (start [] []).cfg 0x1000 = true ∧
    wordAt (start [(29, 0x1004)] [(0x1000, 0xCAFEF00D)]) 0x1000 = 0xCAFEF00D := by
  unfold Accessible DataAligned; decide

theorem test_witness_StStoresWord :
    opcodeField 0x64410008 = 0x19#6 ∧ (start [(29, 0x1004), (1, 7)] []).mem.wf ∧
    Accessible (start [] []) (baseAddress (start [] []) 31 0) ∧
    Accessible (start [] []) (baseAddress (start [] []) 31 0xFFFF) ∧
    (start [(29, 0x1004), (1, 7)] []).reg sp = 0x1004 ∧ (start [(29, 0x1004), (1, 7)] []).reg 1 = 7 ∧
    memValid (start [] []).cfg 0x1000 = true := by
  unfold Accessible DataAligned; decide

theorem test_witness_LdrLoadsRelative :
    opcodeField 0x7CBF0002 = 0x1F#6 ∧ (start [] []).pc.toNat % 4 = 0 ∧
    Accessible (start [] []) (relativeAddress (start [] []) 0x8000) ∧
    Accessible (start [] []) (relativeAddress (start [] []) 0x7FFF) ∧ (start [] []).pc = 0x100 := by
  unfold Accessible DataAligned; decide

theorem test_witness_InaccessibleWordStops :
    ¬ DataAligned (strict (start [] [])) (baseAddress (strict (start [] [])) 31 3) ∧
    DataAligned (strict (start [] [])) (baseAddress (strict (start [] [])) 31 0x5000) ∧
    memValid (strict (start [] [])).cfg (wordAddress (baseAddress (strict (start [] [])) 31 0x5000)) = false ∧
    (strict (start [] [])).pc.toNat % 4 = 0 ∧
    memValid (strict (start [] [])).cfg (relativeAddress (strict (start [] [])) 0x1400) = false := by
  unfold DataAligned; decide

theorem test_witness_JmpLinksAndJumps :
    opcodeField 0x6FFC0000 = 0x1B#6 ∧ (start [] []).cfg.jmpMode = .bit31 ∧
    ((strict (start [(1, 0xFFFFFFFC)] [])).reg 1).toNat % 4 = 0 := by decide

theorem test_witness_JmpLinksAndJumps_mask :
    (start [(1, 3)] []).cfg.misalignedPc = .maskLow2 ∧
    ({ start [] [] with cfg := { Config.atReset with jmpMode := .keep } } : State).cfg.jmpMode = .keep := by decide

theorem test_witness_MisalignedJumpIsRefused :
    ((strict (start [(1, 1)] [])).reg 1).toNat % 4 ≠ 0 ∧ (strict (start [(1, 1)] [])).cfg.misalignedPc = .refuse := by
  decide

theorem test_witness_BranchesTestAndLink :
    opcodeField 0x74410003 = 0x1D#6 ∧ opcodeField 0x7BE1FFFE = 0x1E#6 ∧ (start [] []).reg 1 = 0 ∧
    (start [(1, 0x80000000)] []).reg 1 ≠ 0 := by decide

theorem test_witness_PrivTrapsOrIsRefused :
    opcodeField 0x03FFFFFF = 0x00#6 ∧ (start [] []).mode = .user ∧ State.reset.mode = .supervisor ∧
    State.reset.cfg.privExec = .illegalInstruction ∧ (strict State.reset).mode = .supervisor ∧
    (strict State.reset).cfg.privExec = .refuse := by decide

theorem test_witness_UnassignedOpcodeTraps :
    interruptTaken (start [] [(0x100, 0x04000000)]) = false ∧
    Accessible (start [] [(0x100, 0x04000000)]) (start [] [(0x100, 0x04000000)]).pc ∧
    opcodeField (wordAt (start [] [(0x100, 0x04000000)]) (wordAddress (start [] [(0x100, 0x04000000)]).pc)) ∈
      unassignedOpcodes ∧
    opcodeField (wordAt (start [] [(0x100, 0xFC000000)]) (wordAddress (start [] [(0x100, 0xFC000000)]).pc)) ∈
      unassignedOpcodes := by
  unfold Accessible DataAligned; decide

theorem test_witness_AbsentOptionalOpcodeTraps :
    [Instr.mul 1 2 3, .div 1 2 3, .mulc 1 4 3, .divc 1 4 3].all
      (fun i => !i.wellFormed (bare (start [] [])).cfg) = true := by decide

theorem test_witness_StepRunsDecodedInstruction :
    interruptTaken (start [] [(0x100, 0x80611000)]) = false ∧
    Accessible (start [] [(0x100, 0x80611000)]) (start [] [(0x100, 0x80611000)]).pc ∧
    decoded (wordAt (start [] [(0x100, 0x80611000)]) (wordAddress (start [] [(0x100, 0x80611000)]).pc)) =
      some (.add 1 2 3) := by
  unfold Accessible DataAligned; decide

theorem test_witness_FetchWithoutMemoryFaults :
    interruptTaken (strict ((start [] []).setPc 0x5000)) = false ∧
    (strict ((start [] []).setPc 0x5000)).pc.toNat % 4 = 0 ∧
    memValid (strict ((start [] []).setPc 0x5000)).cfg (strict ((start [] []).setPc 0x5000)).pc = false := by decide

theorem test_witness_InterruptIsTakenBeforeFetch :
    irqNow (withIrq (start [] []) [true]).irq = true ∧ irqNow (irqStuck (start [] [])).irq = true ∧ (start [] []).mode = .user ∧
    ({ State.reset with cfg := { Config.atReset with irqInSupervisor := true } } : State).cfg.irqInSupervisor =
      true := by decide

theorem test_witness_SupervisorModeMasksInterrupts :
    State.reset.mode = .supervisor ∧ State.reset.cfg.irqInSupervisor = false ∧
    holds (step (withIrq (State.reset) [true])) (fun t => t.irq == ⟨[], .repeating []⟩) = true := by decide

/-- The last address below bit 31 for which the return stays there. -/
theorem test_witness_JmpXpReturnsPastIllegalWord :
    ((start [] []).setPc 0x7FFFFFF8).mode = .user ∧ ((start [] []).setPc 0x7FFFFFF8).pc.toNat % 4 = 0 ∧
    (start [] []).cfg.jmpMode = .bit31 ∧ (((start [] []).setPc 0x7FFFFFF8).pc + 4).getLsbD 31 = false := by decide

theorem test_witness_InterruptReturnResumesInstruction :
    ((start [] []).setPc 0x7FFFFFFC).mode = .user ∧ ((start [] []).setPc 0x7FFFFFFC).pc.toNat % 4 = 0 ∧
    (start [] []).cfg.jmpMode = .bit31 ∧ ((start [] []).setPc 0x7FFFFFFC).pc.getLsbD 31 = false := by decide

theorem test_witness_WordReadBackAfterWrite :
    (start [] [(0x1000, 5)]).mem.wf ∧ (0xFFFFFFFC : Word).toNat % 4 = 0 ∧
    memValid (start [] []).cfg 0xFFFFFFFC = true ∧ (0 : Word).toNat % 4 = 0 ∧ (0 : Word) ≠ 0xFFFFFFFC := by decide

theorem test_witness_ByteOrderPlacesBytes :
    (start [] []).mem.wf ∧ (0xFFFFFFFC : Word).toNat % 4 = 0 ∧ memValid (start [] []).cfg 0xFFFFFFFC = true ∧ 3 < 4 ∧
    (start [] []).cfg.byteOrder = .little ∧
    ({ start [] [] with cfg := { Config.atReset with byteOrder := .big } } : State).cfg.byteOrder = .big := by decide

theorem test_witness_StoreIsSeenByFetch :
    (start [(1, 7)] []).mem.wf ∧ holds (exec (.st 1 0x104 31) (start [(1, 7)] [])) (fun t => t.pc == 0x104) = true := by
  decide

theorem test_witness_PushStoresAndRaises :
    (start [(29, 0xFFFFFFFC)] []).mem.wf ∧ ((start [(29, 0xFFFFFFFC)] []).reg sp).toNat % 4 = 0 ∧
    memValid (start [] []).cfg ((start [(29, 0xFFFFFFFC)] []).reg sp) = true := by decide

theorem test_witness_PopLoadsAndLowers :
    ((start [] []).reg sp).toNat % 4 = 0 ∧ memValid (start [] []).cfg ((start [] []).reg sp - 4) = true := by decide

theorem test_witness_StepKeepsInvariant :
    (start [] [(0x100, 0x80611000)]).Inv ∧ State.reset.Inv ∧
    holds (step (start [] [(0x100, 0x80611000)])) (fun t => t.pc == 0x104) = true := by decide

theorem test_witness_RunKeepsInvariant :
    (start [] [(0x100, 0xC0210001)]).Inv ∧
    holds (run 1 (start [] [(0x100, 0xC0210001)])) (fun t => t.reg 1 == 1) = true := by decide

theorem test_witness_StepKeepsParameters :
    holds (step (withIrq (start [] [(0x100, 0xC0210001)]) [false, true])) (fun t => t.irq == ⟨[true], .repeating []⟩) = true := by
  decide

theorem test_witness_OnlyStoreWritesMemory :
    (start [(1, 7)] [(0x100, 0x643F0200)]).mem.wf ∧
    holds (step (start [(1, 7)] [(0x100, 0x643F0200)]))
      (fun t => t.mem.read 0x200 != (start [(1, 7)] [(0x100, 0x643F0200)]).mem.read 0x200) = true := by decide

theorem test_witness_StepWritesOneRegister :
    holds (step (start [] [(0x100, 0xC0210001)])) (fun t => t.reg 1 != (start [] []).reg 1) = true ∧
    holds (step (start [] [])) (fun t => t.reg xp != (start [] []).reg xp) = true := by decide

theorem test_witness_ModeChangesOnlyByTrapOrJmp :
    (start [] []).cfg.jmpMode ≠ .platform ∧ (start [] []).mode = .user ∧
    holds (step (start [] [])) (fun t => t.mode == .supervisor) = true ∧
    holds (step (super (start [] [(0x100, 0x6FFF0000)]))) (fun t => t.mode == .user) = true := by decide

theorem test_witness_ModeRestrictsOnlyPrivileged : ∀ rest, Instr.add 1 2 3 ≠ .priv rest := by
  intro rest h; cases h

theorem test_witness_ControlTableIsTheMachine :
    (start [] []).mode = .user ∧ State.reset.cfg.privExec = .illegalInstruction := by decide

theorem test_witness_SelfBranchRepeatsForEver :
    (start [] [(0x100, 0x77FFFFFF)]).pc.toNat % 4 = 0 ∧ endOfRun (start [] [(0x100, 0x77FFFFFF)]) = true ∧
    endOfRun (super (start [] [(0x100, 0x77FFFFFF)])) = true ∧
    (super (start [] [(0x100, 0x77FFFFFF)])).mode = .supervisor ∧
    (super (start [] [])).cfg.irqInSupervisor = false := by decide

end Sys2Proof.Tests
end

/-! PROOFS. AND, OR, XOR and CMPEQ (40_operate.md R107 to R110). The rules they share (decode, completion, frame,
example) are proved once, for any instruction that writes a function of its two operands; each obligation then adds
what its own function computes. -/

namespace Sys2Proof.Machine

/-! ### The shared shape of the register forms -/

section RegisterForms

variable {opc : BitVec 6} {mk : Reg → Reg → Reg → Instr} {f : Word → Word → Word}

/-- The register-form rule (R100) holds of an instruction that always writes `f` of its operands, for whatever `f`
satisfies. -/
theorem registerForm_of_writeResult {rel : Word → Word → Word → Prop}
    (hdecode : ∀ w, opcodeField w = opc → decode w = .ok (mk (raField w) (rbField w) (rcField w)))
    (hexec : ∀ ra rb rc s, exec (mk ra rb rc) s = writeResult s rc (f (s.reg ra) (s.reg rb)))
    (hrel : ∀ a b, rel a b (f a b)) : RegisterForm opc mk rel := by
  refine ⟨hdecode, fun ra rb rc s _ => ?_⟩
  obtain ⟨t, hnext, hwrites⟩ := writeResult_writesOnly s rc (f (s.reg ra) (s.reg rb))
  exact ⟨t, f (s.reg ra) (s.reg rb), (hexec ra rb rc s).trans hnext, hwrites, hrel _ _⟩

/-- The example of a register-form rule comes down to the encoded word and one value of `f`. -/
theorem exampleR1R2R3_of_writeResult {word a b r : Word}
    (hexec : ∀ ra rb rc s, exec (mk ra rb rc) s = writeResult s rc (f (s.reg ra) (s.reg rb)))
    (hword : encode (mk 1 2 3) = word) (hvalue : f a b = r) : ExampleR1R2R3 (mk 1 2 3) word a b r := by
  refine ⟨hword, fun s ha hb => ?_⟩
  obtain ⟨t, hnext, hregs, -⟩ := writeResult_writesOnly s 3 r
  refine ⟨t, ?_, by simpa using hregs 3⟩
  rw [hexec, ha, hb, hvalue, hnext]

end RegisterForms

/-! ### What the four opcodes decode to (R67) -/

theorem decode_of_opcode_and (w : Word) (h : opcodeField w = 0x28#6) :
    decode w = .ok (.and (raField w) (rbField w) (rcField w)) := by
  simp only [decode, h]

theorem decode_of_opcode_or (w : Word) (h : opcodeField w = 0x29#6) :
    decode w = .ok (.or (raField w) (rbField w) (rcField w)) := by
  simp only [decode, h]

theorem decode_of_opcode_xor (w : Word) (h : opcodeField w = 0x2A#6) :
    decode w = .ok (.xor (raField w) (rbField w) (rcField w)) := by
  simp only [decode, h]

theorem decode_of_opcode_cmpeq (w : Word) (h : opcodeField w = 0x24#6) :
    decode w = .ok (.cmpeq (raField w) (rbField w) (rcField w)) := by
  simp only [decode, h]

/-! ### What the four instructions write (R107 to R110) -/

theorem exec_and (ra rb rc : Reg) (s : State) :
    exec (.and ra rb rc) s = writeResult s rc (aluAnd (s.reg ra) (s.reg rb)) := rfl

theorem exec_or (ra rb rc : Reg) (s : State) :
    exec (.or ra rb rc) s = writeResult s rc (aluOr (s.reg ra) (s.reg rb)) := rfl

theorem exec_xor (ra rb rc : Reg) (s : State) :
    exec (.xor ra rb rc) s = writeResult s rc (aluXor (s.reg ra) (s.reg rb)) := rfl

theorem exec_cmpeq (ra rb rc : Reg) (s : State) :
    exec (.cmpeq ra rb rc) s = writeResult s rc (aluCmpeq (s.reg ra) (s.reg rb)) := rfl

/-! ### What the four functions compute -/

@[simp] theorem getLsbD_aluAnd (a b : Word) (i : Nat) :
    (aluAnd a b).getLsbD i = (a.getLsbD i && b.getLsbD i) := BitVec.getLsbD_and

@[simp] theorem aluAnd_zero (a : Word) : aluAnd a 0 = 0 := BitVec.and_zero

@[simp] theorem aluAnd_self (a : Word) : aluAnd a a = a := BitVec.and_self

@[simp] theorem getLsbD_aluOr (a b : Word) (i : Nat) :
    (aluOr a b).getLsbD i = (a.getLsbD i || b.getLsbD i) := BitVec.getLsbD_or

@[simp] theorem aluOr_zero (a : Word) : aluOr a 0 = a := BitVec.or_zero

@[simp] theorem getLsbD_aluXor (a b : Word) (i : Nat) :
    (aluXor a b).getLsbD i = (a.getLsbD i != b.getLsbD i) := BitVec.getLsbD_xor

@[simp] theorem aluXor_self (a : Word) : aluXor a a = 0 := BitVec.xor_self

/-- Stated with the proposition `a = b`, where the definition tests the Boolean `a == b`. -/
theorem aluCmpeq_eq_ite (a b : Word) : aluCmpeq a b = if a = b then 1 else 0 := by
  simp only [aluCmpeq, truth, beq_iff_eq]

/-! ### The obligations -/

/-- Settles O15. -/
theorem andIsBitwise : Obligations.AndIsBitwise := by
  refine ⟨registerForm_of_writeResult decode_of_opcode_and exec_and fun a b => ⟨?bits, ?withZero, ?withItself⟩,
    exampleR1R2R3_of_writeResult exec_and (by decide) (by decide)⟩
  case bits => exact fun i _ => getLsbD_aluAnd a b i
  case withZero => rintro rfl; exact aluAnd_zero a
  case withItself => rintro rfl; exact aluAnd_self a

/-- Settles O16. -/
theorem orIsBitwise : Obligations.OrIsBitwise := by
  refine ⟨registerForm_of_writeResult decode_of_opcode_or exec_or fun a b => ⟨?bits, ?withZero⟩,
    exampleR1R2R3_of_writeResult exec_or (by decide) (by decide)⟩
  case bits => exact fun i _ => getLsbD_aluOr a b i
  case withZero => rintro rfl; exact aluOr_zero a

/-- Settles O17. -/
theorem xorIsBitwise : Obligations.XorIsBitwise := by
  refine ⟨registerForm_of_writeResult decode_of_opcode_xor exec_xor fun a b => ⟨?bits, ?withItself⟩,
    exampleR1R2R3_of_writeResult exec_xor (by decide) (by decide)⟩
  case bits => exact fun i _ => getLsbD_aluXor a b i
  case withItself => rintro rfl; exact aluXor_self a

/-- Settles O21; the two examples are the two branches of the value. -/
theorem cmpeqGivesOneOrZero : Obligations.CmpeqGivesOneOrZero :=
  ⟨registerForm_of_writeResult decode_of_opcode_cmpeq exec_cmpeq aluCmpeq_eq_ite,
    exampleR1R2R3_of_writeResult exec_cmpeq (by decide) (by decide),
    exampleR1R2R3_of_writeResult exec_cmpeq (by decide) (by decide)⟩

end Sys2Proof.Machine

/-! PROOFS. ANDC, ORC, XORC and CMPEQC (41_operate_const.md R126 to R129). The functions are those of the register
twins above; what is new is the second operand, so the rules turn on what the bits of the extended literal are
(30_encoding.md R69). -/

namespace Sys2Proof.Machine

/-! ### The bits of the extended literal (R69) -/

theorem litBit_of_ge {lit : Lit} {i : Nat} (h : 15 ≤ i) : litBit lit i = lit.getLsbD 15 := by
  unfold litBit
  split
  · obtain rfl : i = 15 := by omega
    rfl
  · rfl

theorem getLsbD_sext (lit : Lit) {i : Nat} (h : i < 32) : (sext lit).getLsbD i = litBit lit i := by
  simp only [sext, litBit, BitVec.getLsbD_signExtend, h, decide_true, Bool.true_and, BitVec.msb_eq_getLsbD_last]

/-- Bits 31:15 of the extended literal are copies of the literal's bit 15. -/
theorem getLsbD_sext_of_ge (lit : Lit) {i : Nat} (h : 15 ≤ i) (hi : i < 32) :
    (sext lit).getLsbD i = lit.getLsbD 15 := (getLsbD_sext lit hi).trans (litBit_of_ge h)

/-- A word is the extended literal exactly when it agrees with it in all 32 bits. -/
theorem eq_sext_iff (a : Word) (lit : Lit) : a = sext lit ↔ ∀ i < 32, a.getLsbD i = litBit lit i := by
  constructor
  · rintro rfl i hi
    exact getLsbD_sext lit hi
  · intro h
    exact BitVec.eq_of_getLsbD_eq fun i hi => (h i hi).trans (getLsbD_sext lit hi).symm

/-- The literal -1 extends to a word of ones (R128). -/
theorem sext_neg_one : sext 0xFFFF = BitVec.allOnes 32 := by decide

/-! ### The shared shape of the literal forms -/

section LiteralForms

variable {opc : BitVec 6} {mk : Reg → Lit → Reg → Instr} {f : Word → Word → Word}

/-- The literal-form rule (R120) holds of an instruction that always writes `f` of its register and its extended
literal, for whatever `f` satisfies. -/
theorem literalForm_of_writeResult {rel : Word → Lit → Word → Prop}
    (hdecode : ∀ w, opcodeField w = opc → decode w = .ok (mk (raField w) (litField w) (rcField w)))
    (hexec : ∀ ra lit rc s, exec (mk ra lit rc) s = writeResult s rc (f (s.reg ra) (sext lit)))
    (hrel : ∀ a lit, rel a lit (f a (sext lit))) : LiteralForm opc mk rel := by
  refine ⟨hdecode, fun ra lit rc s _ => ?_⟩
  obtain ⟨t, hnext, hwrites⟩ := writeResult_writesOnly s rc (f (s.reg ra) (sext lit))
  exact ⟨t, f (s.reg ra) (sext lit), (hexec ra lit rc s).trans hnext, hwrites, hrel _ _⟩

/-- The example of a literal-form rule, for any destination but R31, comes down to one value of `f`; with R2 as the
destination this is `ExampleR1R2`. -/
theorem literalExample_of_writeResult {lit : Lit} {rc : Reg} {a r : Word}
    (hexec : ∀ ra lit rc s, exec (mk ra lit rc) s = writeResult s rc (f (s.reg ra) (sext lit)))
    (hrc : rc ≠ 31) (hvalue : f a (sext lit) = r) :
    ∀ s, s.reg 1 = a → ∃ t, exec (mk 1 lit rc) s = .next t ∧ t.reg rc = r := by
  intro s ha
  obtain ⟨t, hnext, hregs, -⟩ := writeResult_writesOnly s rc r
  refine ⟨t, ?_, by simpa [hrc] using hregs rc⟩
  rw [hexec, ha, hvalue, hnext]

end LiteralForms

/-! ### What the four opcodes decode to (R67) -/

theorem decode_of_opcode_andc (w : Word) (h : opcodeField w = 0x38#6) :
    decode w = .ok (.andc (raField w) (litField w) (rcField w)) := by
  simp only [decode, h]

theorem decode_of_opcode_orc (w : Word) (h : opcodeField w = 0x39#6) :
    decode w = .ok (.orc (raField w) (litField w) (rcField w)) := by
  simp only [decode, h]

theorem decode_of_opcode_xorc (w : Word) (h : opcodeField w = 0x3A#6) :
    decode w = .ok (.xorc (raField w) (litField w) (rcField w)) := by
  simp only [decode, h]

theorem decode_of_opcode_cmpeqc (w : Word) (h : opcodeField w = 0x34#6) :
    decode w = .ok (.cmpeqc (raField w) (litField w) (rcField w)) := by
  simp only [decode, h]

/-! ### What the four instructions write (R126 to R129) -/

theorem exec_andc (ra : Reg) (lit : Lit) (rc : Reg) (s : State) :
    exec (.andc ra lit rc) s = writeResult s rc (aluAnd (s.reg ra) (sext lit)) := rfl

theorem exec_orc (ra : Reg) (lit : Lit) (rc : Reg) (s : State) :
    exec (.orc ra lit rc) s = writeResult s rc (aluOr (s.reg ra) (sext lit)) := rfl

theorem exec_xorc (ra : Reg) (lit : Lit) (rc : Reg) (s : State) :
    exec (.xorc ra lit rc) s = writeResult s rc (aluXor (s.reg ra) (sext lit)) := rfl

theorem exec_cmpeqc (ra : Reg) (lit : Lit) (rc : Reg) (s : State) :
    exec (.cmpeqc ra lit rc) s = writeResult s rc (aluCmpeq (s.reg ra) (sext lit)) := rfl

/-! ### What the four functions compute of an extended literal -/

/-- A literal with bit 15 clear keeps at most bits 14:0 (R126). -/
theorem getLsbD_aluAnd_sext_of_clear (a : Word) {lit : Lit} (hclear : lit.getLsbD 15 = false) {i : Nat}
    (h : 15 ≤ i) : (aluAnd a (sext lit)).getLsbD i = false := by
  by_cases hi : i < 32
  · rw [getLsbD_aluAnd, getLsbD_sext_of_ge lit h hi, hclear, Bool.and_false]
  · exact BitVec.getLsbD_of_ge _ _ (by omega)

/-- A literal with bit 15 set keeps bit 15 and all above it (R126). -/
theorem getLsbD_aluAnd_sext_of_set (a : Word) {lit : Lit} (hset : lit.getLsbD 15 = true) {i : Nat}
    (h : 15 ≤ i) : (aluAnd a (sext lit)).getLsbD i = a.getLsbD i := by
  by_cases hi : i < 32
  · rw [getLsbD_aluAnd, getLsbD_sext_of_ge lit h hi, hset, Bool.and_true]
  · rw [BitVec.getLsbD_of_ge _ _ (by omega), BitVec.getLsbD_of_ge _ _ (by omega)]

/-- A literal with bit 15 set sets bit 15 and all above it (R127). -/
theorem getLsbD_aluOr_sext_of_set (a : Word) {lit : Lit} (hset : lit.getLsbD 15 = true) {i : Nat}
    (h : 15 ≤ i) (hi : i < 32) : (aluOr a (sext lit)).getLsbD i = true := by
  rw [getLsbD_aluOr, getLsbD_sext_of_ge lit h hi, hset, Bool.or_true]

/-- The literal -1 complements all 32 bits (R128). -/
theorem aluXor_sext_neg_one (a : Word) : aluXor a (sext 0xFFFF) = ~~~a := by
  rw [sext_neg_one]
  exact BitVec.xor_allOnes

/-- The two answers of CMPEQC by the bits of its operands (R129). -/
theorem aluCmpeq_sext_cases (a : Word) (lit : Lit) :
    (∀ i < 32, a.getLsbD i = litBit lit i) ∧ aluCmpeq a (sext lit) = 1 ∨
      (∃ i < 32, a.getLsbD i ≠ litBit lit i) ∧ aluCmpeq a (sext lit) = 0 := by
  rw [aluCmpeq_eq_ite]
  by_cases h : a = sext lit
  · exact .inl ⟨(eq_sext_iff a lit).1 h, if_pos h⟩
  · have hbit : ∃ i < 32, a.getLsbD i ≠ litBit lit i := by
      simpa only [not_forall, exists_prop] using mt (eq_sext_iff a lit).2 h
    exact .inr ⟨hbit, if_neg h⟩

/-! ### The obligations -/

/-- Settles O18. -/
theorem andcIsBitwise : Obligations.AndcIsBitwise := by
  refine ⟨literalForm_of_writeResult decode_of_opcode_andc exec_andc fun a lit => ⟨?bits, ?clear, ?set⟩,
    literalExample_of_writeResult exec_andc (by decide) (by decide)⟩
  case bits => exact fun i hi => by rw [getLsbD_aluAnd, getLsbD_sext lit hi]
  case clear => exact fun hclear i h => getLsbD_aluAnd_sext_of_clear a hclear h
  case set => exact fun hset i h => getLsbD_aluAnd_sext_of_set a hset (by omega)

/-- Settles O19. -/
theorem orcIsBitwise : Obligations.OrcIsBitwise := by
  refine ⟨literalForm_of_writeResult decode_of_opcode_orc exec_orc fun a lit => ⟨?bits, ?set⟩,
    literalExample_of_writeResult exec_orc (by decide) (by decide)⟩
  case bits => exact fun i hi => by rw [getLsbD_aluOr, getLsbD_sext lit hi]
  case set => exact fun hset i h hi => getLsbD_aluOr_sext_of_set a hset (by omega) hi

/-- Settles O20; its example writes the register it reads, R1. -/
theorem xorcIsBitwise : Obligations.XorcIsBitwise := by
  refine ⟨literalForm_of_writeResult decode_of_opcode_xorc exec_xorc fun a lit => ⟨?bits, ?minusOne⟩, ?word,
    literalExample_of_writeResult exec_xorc (by decide) (by decide)⟩
  case bits => exact fun i hi => by rw [getLsbD_aluXor, getLsbD_sext lit hi]
  case minusOne => rintro rfl; exact aluXor_sext_neg_one a
  case word => decide

/-- Settles O22; the corner case is that 0x0000FFFF is not the extended literal 0xFFFF. -/
theorem cmpeqcGivesOneOrZero : Obligations.CmpeqcGivesOneOrZero :=
  ⟨literalForm_of_writeResult decode_of_opcode_cmpeqc exec_cmpeqc aluCmpeq_sext_cases,
    literalExample_of_writeResult exec_cmpeqc (by decide) (by decide),
    literalExample_of_writeResult exec_cmpeqc (by decide) (by decide)⟩

end Sys2Proof.Machine

/-! PROOFS. PUSH (44_macros_and_conventions.md R182). Its ADDC leaves a state of which all fields are known, and a store
that completes has one effect, so the net effect is that of the store made from the raised state, whose address is the
old SP. -/

namespace Sys2Proof.Machine

/-! ### A store that completes (42_other.md R141, 20_memory.md R46) -/

/-- All a store of `v` at the aligned address `a` does: the word there is `v`, `pc` goes on by 4, and every register,
every other byte, the mode and the model's own fields are as before. -/
def StoresOnly (s t : State) (a v : Word) : Prop :=
  SameRegs s t ∧ t.pc = s.pc + 4 ∧ t.mode = s.mode ∧ SameModelFields s t ∧ wordAt t a = v ∧
    ∀ x, x < a.toNat ∨ a.toNat + 4 ≤ x → t.mem.read x = s.mem.read x

theorem wordAddress_add_three (ea : Word) : (wordAddress ea).toNat + 3 < 2 ^ 32 := by
  rw [wordAddress_eq]
  exact alignDown_add_three ea

theorem wordAddress_of_aligned {ea : Word} (h : ea.toNat % 4 = 0) : wordAddress ea = ea := by
  rw [wordAddress_eq, alignDown_of_aligned ea h]

/-- An aligned address with memory is accessible whatever `MISALIGNED_DATA` is (R42, R47). -/
theorem accessible_of_aligned {s : State} {ea : Word} (hal : ea.toNat % 4 = 0) (hmem : memValid s.cfg ea = true) :
    Accessible s ea := ⟨.inl hal, by rwa [wordAddress_of_aligned hal]⟩

/-- Everything a store that completes does. -/
theorem storeFrom_storesOnly (s : State) (ea v : Word) (hwf : s.mem.wf) (h : Accessible s ea) :
    ∃ t, storeFrom s ea v = .next t ∧ StoresOnly s t (wordAddress ea) v := by
  refine ⟨_, storeFrom_of_accessible s ea v h, fun r => by simp, by simp, by simp, by simp [SameModelFields],
    ?stored, fun x hx => ?others⟩
  case stored => exact readWord_writeWord_same _ _ _ v hwf (wordAddress_add_three ea)
  case others =>
    rw [advance_mem, setMem_mem, read_writeWord _ _ _ _ _ hwf (wordAddress_add_three ea), if_neg (by omega)]

/-! ### The two instructions of PUSH (R182) -/

/-- ADDC as one state (R122). -/
theorem exec_addc (ra : Reg) (lit : Lit) (rc : Reg) (s : State) :
    exec (.addc ra lit rc) s = .next (s.setReg rc (s.reg ra + sext lit)).advance := rfl

theorem exec_st (rc : Reg) (lit : Lit) (ra : Reg) (s : State) :
    exec (.st rc lit ra) s = storeFrom s (baseAddress s ra lit) (s.reg rc) := rfl

theorem expand_push (at_ : Word) (ra : Reg) : expand at_ (.push ra) = some [.addc sp 4 sp, .st ra 0xFFFC sp] := rfl

/-- The state between the two instructions: SP raised by 4, `pc` at the ST. -/
def spRaised (s : State) : State := (s.setReg sp (s.reg sp + 4)).advance

theorem exec_addc_sp (s : State) : exec (.addc sp 4 sp) s = .next (spRaised s) := exec_addc sp 4 sp s

@[simp] theorem spRaised_pc (s : State) : (spRaised s).pc = s.pc + 4 := by simp [spRaised]
@[simp] theorem spRaised_mode (s : State) : (spRaised s).mode = s.mode := by simp [spRaised]
@[simp] theorem spRaised_mem (s : State) : (spRaised s).mem = s.mem := by simp [spRaised]
@[simp] theorem spRaised_irq (s : State) : (spRaised s).irq = s.irq := by simp [spRaised]
@[simp] theorem spRaised_cfg (s : State) : (spRaised s).cfg = s.cfg := by simp [spRaised]

theorem spRaised_regWritten (s : State) : RegWritten s (spRaised s) sp (s.reg sp + 4) :=
  fun r => reg_setReg s sp (s.reg sp + 4) r

/-- What the ST stores: Ra's old value, but the raised SP for PUSH(SP), because ST reads SP after ADDC wrote it. -/
theorem reg_spRaised (s : State) (r : Reg) :
    (spRaised s).reg r = if r = sp then s.reg sp + 4 else s.reg r := by
  by_cases h : r = sp
  · subst h
    rw [if_pos rfl]
    exact reg_setReg_same s sp _ (by decide)
  · rw [if_neg h]
    exact reg_setReg_other s sp r _ h

/-- The displacement -4 undoes the raise, so ST stores at the old SP. -/
theorem baseAddress_spRaised (s : State) : baseAddress (spRaised s) sp 0xFFFC = s.reg sp := by
  have hlit : sext 0xFFFC = -4 := by decide
  rw [baseAddress, reg_spRaised, if_pos rfl, hlit, BitVec.add_assoc]
  exact BitVec.add_zero _

/-- The two instructions complete one after the other, and the second does a store at the old SP and nothing else. -/
theorem exec_push_storesOnly (ra : Reg) (s : State) (hwf : s.mem.wf) (hal : (s.reg sp).toNat % 4 = 0)
    (hmem : memValid s.cfg (s.reg sp) = true) :
    ∃ t, andThen (exec (.addc sp 4 sp) s) (exec (.st ra 0xFFFC sp)) = .next t ∧
      StoresOnly (spRaised s) t (s.reg sp) ((spRaised s).reg ra) := by
  rw [exec_addc_sp, andThen_next, exec_st, baseAddress_spRaised]
  have hacc : Accessible (spRaised s) (s.reg sp) := accessible_of_aligned hal (by rwa [spRaised_cfg])
  have hstore := storeFrom_storesOnly (spRaised s) (s.reg sp) ((spRaised s).reg ra) (by rwa [spRaised_mem]) hacc
  rwa [wordAddress_of_aligned hal] at hstore

/-! ### The obligation -/

/-- Settles O50. -/
theorem pushStoresAndRaises : Obligations.PushStoresAndRaises := by
  refine ⟨fun at_ => ?words, expand_push, fun ra s hwf hal hmem => ?effect⟩
  case words =>
    rw [expand_push]
    decide
  case effect =>
    obtain ⟨t, hnext, hregs, hpc, hmode, ⟨hirq, hcfg⟩, hword, hbytes⟩ := exec_push_storesOnly ra s hwf hal hmem
    refine ⟨t, hnext, fun r => ?reg, ?pc, ?mode, ⟨?irq, ?cfg⟩, ?stored, fun a ha => ?others⟩
    case reg => exact (hregs r).trans (spRaised_regWritten s r)
    case pc => rw [hpc, spRaised_pc, BitVec.add_assoc]; rfl
    case mode => rw [hmode, spRaised_mode]
    case irq => rw [hirq, spRaised_irq]
    case cfg => rw [hcfg, spRaised_cfg]
    case stored => rw [hword, reg_spRaised]
    case others => rw [hbytes a ha, spRaised_mem]

end Sys2Proof.Machine

/-! PROOFS. The decoder and the encoder (30_encoding.md). A word decodes by its opcode alone, to the instruction of that
opcode whose operands are the word's fields; so every statement about decoding is one about fields. -/

namespace Sys2Proof

/-! ### What a word decodes to (R63, R66, R67) -/

/-- The instruction of the same opcode whose operands are the fields of a word (R63, R64). -/
def Instr.withFieldsOf (w : Word) : Instr → Instr
  | .priv _ => .priv (restField w)
  | .ld .. => .ld (raField w) (litField w) (rcField w)
  | .st .. => .st (rcField w) (litField w) (raField w)
  | .jmp .. => .jmp (raField w) (rcField w)
  | .beq .. => .beq (raField w) (litField w) (rcField w)
  | .bne .. => .bne (raField w) (litField w) (rcField w)
  | .ldr .. => .ldr (litField w) (rcField w)
  | .add .. => .add (raField w) (rbField w) (rcField w)
  | .sub .. => .sub (raField w) (rbField w) (rcField w)
  | .mul .. => .mul (raField w) (rbField w) (rcField w)
  | .div .. => .div (raField w) (rbField w) (rcField w)
  | .cmpeq .. => .cmpeq (raField w) (rbField w) (rcField w)
  | .cmplt .. => .cmplt (raField w) (rbField w) (rcField w)
  | .cmple .. => .cmple (raField w) (rbField w) (rcField w)
  | .and .. => .and (raField w) (rbField w) (rcField w)
  | .or .. => .or (raField w) (rbField w) (rcField w)
  | .xor .. => .xor (raField w) (rbField w) (rcField w)
  | .shl .. => .shl (raField w) (rbField w) (rcField w)
  | .shr .. => .shr (raField w) (rbField w) (rcField w)
  | .sra .. => .sra (raField w) (rbField w) (rcField w)
  | .addc .. => .addc (raField w) (litField w) (rcField w)
  | .subc .. => .subc (raField w) (litField w) (rcField w)
  | .mulc .. => .mulc (raField w) (litField w) (rcField w)
  | .divc .. => .divc (raField w) (litField w) (rcField w)
  | .cmpeqc .. => .cmpeqc (raField w) (litField w) (rcField w)
  | .cmpltc .. => .cmpltc (raField w) (litField w) (rcField w)
  | .cmplec .. => .cmplec (raField w) (litField w) (rcField w)
  | .andc .. => .andc (raField w) (litField w) (rcField w)
  | .orc .. => .orc (raField w) (litField w) (rcField w)
  | .xorc .. => .xorc (raField w) (litField w) (rcField w)
  | .shlc .. => .shlc (raField w) (litField w) (rcField w)
  | .shrc .. => .shrc (raField w) (litField w) (rcField w)
  | .srac .. => .srac (raField w) (litField w) (rcField w)

@[simp] theorem opcode_withFieldsOf (w : Word) (i : Instr) : (i.withFieldsOf w).opcode = i.opcode := by
  cases i <;> rfl

/-- A word with the opcode of an instruction decodes to that instruction with the word's own fields (R67). -/
theorem decode_of_opcode {w : Word} (i : Instr) (h : opcodeField w = i.opcode) :
    decode w = .ok (i.withFieldsOf w) := by
  cases i <;> simp only [Instr.opcode] at h <;> simp only [decode, h, Instr.withFieldsOf]

/-- What a word decodes to has the word's opcode and the word's fields. -/
theorem of_decode_eq_ok {w : Word} {i : Instr} (h : decode w = .ok i) :
    i.opcode = opcodeField w ∧ i.withFieldsOf w = i := by
  unfold decode at h
  split at h <;> cases h
  all_goals exact ⟨Eq.symm ‹_›, rfl⟩

/-- A word that is rejected is rejected by the name of its opcode (R72). -/
theorem of_decode_eq_error {w : Word} {r : Reject} (h : decode w = .error r) :
    r = .unassignedOpcode (opcodeField w) := by
  unfold decode at h
  split at h <;> cases h
  rfl

/-! ### Assigned and unassigned opcodes (R67, R72) -/

/-- An instruction of every form. -/
def everyForm : List Instr :=
  [.priv 0, .ld 0 0 0, .st 0 0 0, .jmp 0 0, .beq 0 0 0, .bne 0 0 0, .ldr 0 0, .add 0 0 0, .sub 0 0 0, .mul 0 0 0,
    .div 0 0 0, .cmpeq 0 0 0, .cmplt 0 0 0, .cmple 0 0 0, .and 0 0 0, .or 0 0 0, .xor 0 0 0, .shl 0 0 0, .shr 0 0 0,
    .sra 0 0 0, .addc 0 0 0, .subc 0 0 0, .mulc 0 0 0, .divc 0 0 0, .cmpeqc 0 0 0, .cmpltc 0 0 0, .cmplec 0 0 0,
    .andc 0 0 0, .orc 0 0 0, .xorc 0 0 0, .shlc 0 0 0, .shrc 0 0 0, .srac 0 0 0]

/-- The 31 listed opcodes and the opcodes of the 33 forms are all 64 of them. -/
theorem opcode_unassigned_or_of_everyForm :
    ∀ op : BitVec 6, op ∈ Machine.unassignedOpcodes ∨ op ∈ everyForm.map Instr.opcode := by decide

theorem opcode_not_mem_unassignedOpcodes (i : Instr) : i.opcode ∉ Machine.unassignedOpcodes := by
  cases i <;> simp only [Instr.opcode] <;> decide

theorem decode_of_unassigned {w : Word} (h : opcodeField w ∈ Machine.unassignedOpcodes) :
    decode w = .error (.unassignedOpcode (opcodeField w)) := by
  cases hd : decode w with
  | ok i => exact absurd ((of_decode_eq_ok hd).1 ▸ h) (opcode_not_mem_unassignedOpcodes i)
  | error r => rw [of_decode_eq_error hd]

theorem decode_of_assigned {w : Word} (h : opcodeField w ∉ Machine.unassignedOpcodes) :
    ∃ i, decode w = .ok i ∧ i.opcode = opcodeField w := by
  obtain ⟨i, -, hi⟩ := List.mem_map.1 ((opcode_unassigned_or_of_everyForm (opcodeField w)).resolve_left h)
  exact ⟨i.withFieldsOf w, decode_of_opcode i hi.symm, by rw [opcode_withFieldsOf, hi]⟩

/-- Settles O5. -/
theorem everyOpcodeIsAssignedOrRejected : Obligations.EveryOpcodeIsAssignedOrRejected :=
  ⟨by decide, by decide, fun _ => decode_of_unassigned, fun _ => decode_of_assigned⟩

/-! ### The word an instruction is assembled to (R82) -/

theorem opcodeField_encode (i : Instr) : opcodeField (encode i) = i.opcode := by
  cases i <;> simp only [encode, opcodeField_encOp, opcodeField_encLit, opcodeField_append]

/-- The fields of an encoded word are the operands it was encoded from. -/
theorem withFieldsOf_encode (i : Instr) : i.withFieldsOf (encode i) = i := by
  cases i <;> simp only [Instr.withFieldsOf, encode, raField_encOp, rbField_encOp, rcField_encOp, raField_encLit,
    litField_encLit, rcField_encLit, restField_append]

theorem decode_encode (i : Instr) : decode (encode i) = .ok i := by
  rw [decode_of_opcode i (opcodeField_encode i), withFieldsOf_encode]

/-- The decoder reads a word's four bytes as the word (R40, R60). -/
theorem decodeBytes_of_decode {w : Word} {i : Instr} (h : decode w = .ok i) (o : ByteOrder) (rest : List Byte) :
    decodeBytes o ((List.range 4).map (byteOfWord o w) ++ rest) = .ok (i, rest) := by
  have hbytes : (List.range 4).map (byteOfWord o w) =
      [byteOfWord o w 0, byteOfWord o w 1, byteOfWord o w 2, byteOfWord o w 3] := rfl
  rw [hbytes]
  simp only [List.cons_append, List.nil_append, decodeBytes, Machine.wordOfBytes_byteOfWord, h]

/-- Settles O1. -/
theorem decodeInvertsEncode : Obligations.DecodeInvertsEncode :=
  fun o i rest => decodeBytes_of_decode (decode_encode i) o rest

/-- Settles O6: each word is the encoding of its instruction, and the last has an unassigned opcode. -/
theorem vectorWordsDecode : Obligations.VectorWordsDecode :=
  ⟨decode_encode (.add 1 2 3), decode_encode (.div 10 11 12), decode_encode (.sra 7 8 9),
    decode_encode (.addc sp 4 sp), decode_encode (.mulc 3 0xFFFE 4), decode_encode (.ld 1 0xFFFC 2),
    decode_encode (.st 2 8 1), decode_encode (.jmp lp 31), decode_encode (.bne 1 0xFFFE 31),
    decode_encode (.ldr 2 5), decode_encode (.priv 0), decode_of_unassigned (w := 0x04000000) (by decide)⟩

/-! ### Words as sums (R82) -/

/-- Juxtaposition is a sum of the high part, shifted, and the low part. -/
theorem toNat_append_eq_add {n m : Nat} (x : BitVec n) (y : BitVec m) :
    (x ++ y).toNat = x.toNat * 2 ^ m + y.toNat := by
  rw [BitVec.toNat_append, Nat.shiftLeft_eq, mul_comm, Nat.two_pow_add_eq_or_of_lt y.isLt]

@[simp] theorem toNat_regBits (r : Reg) : (regBits r).toNat = r.val := rfl

/-- Settles O3. -/
theorem encodedWordIsSumOfShiftedFields : Obligations.EncodedWordIsSumOfShiftedFields := by
  constructor
  · intro o ra rb rc
    simp only [encOp, toNat_append_eq_add, toNat_regBits, BitVec.toNat_ofNat]
    omega
  · intro o ra lit rc
    simp only [encLit, toNat_append_eq_add, toNat_regBits]
    omega

/-! ### Bits without a use (R71) -/

/-- A field inside a part on which two words agree is the same in both. -/
theorem extractLsb'_congr_of_part {w w' : Word} {lo n start len : Nat}
    (h : w.extractLsb' lo n = w'.extractLsb' lo n) (hlo : lo ≤ start) (hhi : start + len ≤ lo + n) :
    w.extractLsb' start len = w'.extractLsb' start len := by
  apply BitVec.eq_of_getLsbD_eq
  intro i hi
  have hbit := congrArg (fun x => x.getLsbD (start - lo + i)) h
  simp only [BitVec.getLsbD_extractLsb', show start - lo + i < n by omega, decide_true, Bool.true_and,
    show lo + (start - lo + i) = start + i by omega] at hbit
  simp only [BitVec.getLsbD_extractLsb', hbit]

section Fields

variable {w w' : Word} {lo n : Nat} (h : w.extractLsb' lo n = w'.extractLsb' lo n)

include h

theorem opcodeField_congr (hlo : lo ≤ 26) (hhi : 32 ≤ lo + n) : opcodeField w = opcodeField w' :=
  extractLsb'_congr_of_part h hlo hhi

theorem rcField_congr (hlo : lo ≤ 21) (hhi : 26 ≤ lo + n) : rcField w = rcField w' :=
  congrArg BitVec.toFin (extractLsb'_congr_of_part h hlo hhi)

theorem raField_congr (hlo : lo ≤ 16) (hhi : 21 ≤ lo + n) : raField w = raField w' :=
  congrArg BitVec.toFin (extractLsb'_congr_of_part h hlo hhi)

theorem rbField_congr (hlo : lo ≤ 11) (hhi : 16 ≤ lo + n) : rbField w = rbField w' :=
  congrArg BitVec.toFin (extractLsb'_congr_of_part h hlo hhi)

end Fields

/-- Bits 31:30 of a word are the two high bits of its opcode (R65). -/
theorem extractLsb'_opcodeField_high (w : Word) : (opcodeField w).extractLsb' 4 2 = w.extractLsb' 30 2 := by
  apply BitVec.eq_of_getLsbD_eq
  intro i hi
  simp only [opcodeField, BitVec.getLsbD_extractLsb', hi, show 4 + i < 6 by omega, decide_true, Bool.true_and,
    ← Nat.add_assoc]

/-- The register-format instruction of an operation (R61, R67). -/
def Machine.AluOp.registerForm : Machine.AluOp → Reg → Reg → Reg → Instr
  | .add => .add
  | .sub => .sub
  | .mul => .mul
  | .div => .div
  | .cmpeq => .cmpeq
  | .cmplt => .cmplt
  | .cmple => .cmple
  | .and => .and
  | .or => .or
  | .xor => .xor
  | .shl => .shl
  | .shr => .shr
  | .sra => .sra

/-- The literal-format instruction of an operation (R62, R67). -/
def Machine.AluOp.literalForm : Machine.AluOp → Reg → Lit → Reg → Instr
  | .add => .addc
  | .sub => .subc
  | .mul => .mulc
  | .div => .divc
  | .cmpeq => .cmpeqc
  | .cmplt => .cmpltc
  | .cmple => .cmplec
  | .and => .andc
  | .or => .orc
  | .xor => .xorc
  | .shl => .shlc
  | .shr => .shrc
  | .sra => .srac

/-- The row `10xxxx` of the opcode map: the operations' register forms, and unassigned opcodes (R67, R72). -/
theorem opcode_registerRow : ∀ op : BitVec 6, op.extractLsb' 4 2 = 0b10#2 →
    (∀ f ∈ Machine.aluOpOf (op.extractLsb' 0 4), op = (f.registerForm 0 0 0).opcode) ∧
    (Machine.aluOpOf (op.extractLsb' 0 4) = none → op ∈ Machine.unassignedOpcodes) := by decide

/-- The row `11xxxx` of the opcode map: the operations' literal forms, and unassigned opcodes (R67, R72). -/
theorem opcode_literalRow : ∀ op : BitVec 6, op.extractLsb' 4 2 = 0b11#2 →
    (∀ f ∈ Machine.aluOpOf (op.extractLsb' 0 4), op = (f.literalForm 0 0 0).opcode) ∧
    (Machine.aluOpOf (op.extractLsb' 0 4) = none → op ∈ Machine.unassignedOpcodes) := by decide

theorem decode_registerForm {w : Word} {f : Machine.AluOp} (hrow : (opcodeField w).extractLsb' 4 2 = 0b10#2)
    (hf : Machine.aluOpOf ((opcodeField w).extractLsb' 0 4) = some f) :
    decode w = .ok (f.registerForm (raField w) (rbField w) (rcField w)) := by
  rw [decode_of_opcode _ ((opcode_registerRow _ hrow).1 f hf)]
  cases f <;> rfl

theorem decode_literalForm {w : Word} {f : Machine.AluOp} (hrow : (opcodeField w).extractLsb' 4 2 = 0b11#2)
    (hf : Machine.aluOpOf ((opcodeField w).extractLsb' 0 4) = some f) :
    decode w = .ok (f.literalForm (raField w) (litField w) (rcField w)) := by
  rw [decode_of_opcode _ ((opcode_literalRow _ hrow).1 f hf)]
  cases f <;> rfl

/-- Register-format words that agree on bits 31:11 decode alike. -/
theorem decode_congr_registerFormat {w w' : Word} (hformat : w.extractLsb' 30 2 = 0b10#2)
    (h : w.extractLsb' 11 21 = w'.extractLsb' 11 21) : decode w = decode w' := by
  have hop : opcodeField w = opcodeField w' := opcodeField_congr h (by decide) (by decide)
  have hra : raField w = raField w' := raField_congr h (by decide) (by decide)
  have hrb : rbField w = rbField w' := rbField_congr h (by decide) (by decide)
  have hrc : rcField w = rcField w' := rcField_congr h (by decide) (by decide)
  have hrow : (opcodeField w).extractLsb' 4 2 = 0b10#2 := (extractLsb'_opcodeField_high w).trans hformat
  cases hf : Machine.aluOpOf ((opcodeField w).extractLsb' 0 4) with
  | none =>
    have hmem := (opcode_registerRow _ hrow).2 hf
    rw [decode_of_unassigned hmem, decode_of_unassigned (hop ▸ hmem), hop]
  | some f => rw [decode_registerForm hrow hf, decode_registerForm (hop ▸ hrow) (hop ▸ hf), hra, hrb, hrc]

theorem decode_congr_jmp {w w' : Word} (hop : opcodeField w = 0x1B#6)
    (h : w.extractLsb' 16 16 = w'.extractLsb' 16 16) : decode w = decode w' := by
  have hop' : opcodeField w' = 0x1B#6 := (opcodeField_congr h (by decide) (by decide)).symm.trans hop
  rw [decode_of_opcode (.jmp 0 0) hop, decode_of_opcode (.jmp 0 0) hop']
  simp only [Instr.withFieldsOf, raField_congr h (by decide) (by decide), rcField_congr h (by decide) (by decide)]

theorem decode_congr_ldr {w w' : Word} (hop : opcodeField w = 0x1F#6)
    (hhigh : w.extractLsb' 21 11 = w'.extractLsb' 21 11) (hlow : w.extractLsb' 0 16 = w'.extractLsb' 0 16) :
    decode w = decode w' := by
  have hop' : opcodeField w' = 0x1F#6 := (opcodeField_congr hhigh (by decide) (by decide)).symm.trans hop
  have hlit : litField w = litField w' := hlow
  rw [decode_of_opcode (.ldr 0 0) hop, decode_of_opcode (.ldr 0 0) hop']
  simp only [Instr.withFieldsOf, hlit, rcField_congr hhigh (by decide) (by decide)]

/-- Settles O4. -/
theorem unusedBitsAreIgnored : Obligations.UnusedBitsAreIgnored :=
  ⟨fun _ _ => decode_congr_registerFormat, fun _ _ => decode_congr_jmp, fun _ _ => decode_congr_ldr⟩

/-! ### Canonical words (R71, R82) -/

/-- A word whose bits 10:0 are 0 is its opcode and its three register fields (R61). -/
theorem encOp_fields (w : Word) (h : w.extractLsb' 0 11 = 0#11) :
    encOp (opcodeField w) (raField w) (rbField w) (rcField w) = w := by
  have hlit : regBits (rbField w) ++ 0#11 = litField w := by
    rw [← h]
    apply BitVec.eq_of_getLsbD_eq
    intro i hi
    simp only [rbField, regBits_toFin, litField, BitVec.getLsbD_append, BitVec.getLsbD_extractLsb', hi, decide_true,
      Bool.true_and]
    split
    · simp [*]
    · simp [show i - 11 < 5 by omega, show 11 + (i - 11) = i by omega]
  calc encOp (opcodeField w) (raField w) (rbField w) (rcField w)
      = encLit (opcodeField w) (raField w) (regBits (rbField w) ++ 0#11) (rcField w) := by
        rw [encOp, encLit, BitVec.append_assoc]; rfl
    _ = w := by rw [hlit, encLit_fields]

/-- Bits 10:0 of a word assembled in the register format are 0 (R82). -/
theorem extractLsb'_encOp_low (o : BitVec 6) (ra rb rc : Reg) : (encOp o ra rb rc).extractLsb' 0 11 = 0#11 := by
  unfold encOp
  rw [extract_append_low _ _ _ _ (by omega)]
  exact BitVec.extractLsb'_eq_self

/-- In a canonical word of the register format bits 10:0 are 0. -/
theorem low_eq_zero_of_canonical {w : Word} {op : BitVec 6} (hop : op = opcodeField w)
    (hrow : op.extractLsb' 4 2 = 0b10#2)
    (hc : (w.extractLsb' 30 2 != 0b10#2 || w.extractLsb' 0 11 == 0#11) = true) : w.extractLsb' 0 11 = 0#11 := by
  have hhigh : w.extractLsb' 30 2 = 0b10#2 := by rw [← extractLsb'_opcodeField_high, ← hop, hrow]
  simpa [hhigh] using hc

/-- A canonical word is the encoding of what it decodes to. -/
theorem encode_of_canonicalWord {w : Word} {i : Instr} (hc : canonicalWord w = true) (h : decode w = .ok i) :
    encode i = w := by
  obtain ⟨hop, hself⟩ := of_decode_eq_ok h
  unfold canonicalWord at hc
  rw [h] at hc
  rw [← hself]
  cases i
  case priv => exact (congrArg (· ++ restField w) hop).trans (opcodeField_append_restField w)
  case jmp =>
    have hlit : litField w = 0#16 := by simpa using hc
    simp only [Instr.withFieldsOf, encode]
    rw [← hlit]
    exact (congrArg (encLit · _ _ _) hop).trans (encLit_fields w)
  case ldr =>
    have hra : raField w = 31 := by simpa using hc
    simp only [Instr.withFieldsOf, encode]
    rw [← hra]
    exact (congrArg (encLit · _ _ _) hop).trans (encLit_fields w)
  case add | sub | mul | div | cmpeq | cmplt | cmple | and | or | xor | shl | shr | sra =>
    have hlow := low_eq_zero_of_canonical hop (by simp [Instr.opcode]) hc
    exact (congrArg (encOp · _ _ _) hop).trans (encOp_fields w hlow)
  all_goals exact (congrArg (encLit · _ _ _) hop).trans (encLit_fields w)

/-- Every word the assembler writes is canonical. -/
theorem canonicalWord_encode (i : Instr) : canonicalWord (encode i) = true := by
  have hhigh : (encode i).extractLsb' 30 2 = i.opcode.extractLsb' 4 2 := by
    rw [← extractLsb'_opcodeField_high, opcodeField_encode]
  unfold canonicalWord
  rw [decode_encode]
  cases i
  case jmp => exact beq_iff_eq.2 (litField_encLit _ _ _ _)
  case ldr => exact beq_iff_eq.2 (raField_encLit _ _ _ _)
  case add | sub | mul | div | cmpeq | cmplt | cmple | and | or | xor | shl | shr | sra =>
    simp only [encode, extractLsb'_encOp_low, BEq.rfl, Bool.or_true]
  all_goals simp [hhigh, Instr.opcode]

/-- Settles O2. -/
theorem encodeInvertsDecodeOnCanonicalWords : Obligations.EncodeInvertsDecodeOnCanonicalWords :=
  ⟨fun _ _ => encode_of_canonicalWord, canonicalWord_encode⟩

end Sys2Proof

/-! PROOFS. What every step keeps and what it can change (10_state.md R21, R27, R28, 20_memory.md R46). All six
statements come from one inversion of the step, by cases of the next state's shape. -/

namespace Sys2Proof.Machine

/-! ### The shapes of a next state -/

/-- The fetch does not look at the input irq (R44). -/
theorem fetch_sampled (s : State) : fetch s.sampled = fetch s := memRead_congr s s.sampled s.pc rfl rfl

/-- The shapes of the state a step from `s` leads to: a trap's entry (R224, R232); or, without an interrupt, what the
fetched word `w` does: a result in its Rc, a word stored, a jump, a branch, a platform's own privileged instruction. -/
inductive StepShape (s : State) : State → Prop
  | trap (tr : Trap) : StepShape s (takeTrap tr s.sampled)
  | result {w : Word} (hirq : interruptTaken s = false) (hfetch : fetch s = .next w) (v : Word) :
      StepShape s (s.sampled.setReg (rcField w) v).advance
  | store {w : Word} {rc ra : Reg} {lit : Lit} (hirq : interruptTaken s = false) (hfetch : fetch s = .next w)
      (hdecode : decode w = .ok (.st rc lit ra)) :
      StepShape s (s.sampled.setMem
        (s.mem.writeWord s.cfg.byteOrder (wordAddress (baseAddress s ra lit)).toNat (s.reg rc))).advance
  | jump {w : Word} {ra rc : Reg} (hirq : interruptTaken s = false) (hfetch : fetch s = .next w)
      (hdecode : decode w = .ok (.jmp ra rc)) (hrc : rc = rcField w) :
      StepShape s (((s.sampled.setReg rc (s.pc + 4)).setMode (jmpMode s.cfg s.mode (s.reg ra))).setPc
        (wordAddress (s.reg ra)))
  | branch {w : Word} (hirq : interruptTaken s = false) (hfetch : fetch s = .next w) (lit : Lit) (taken : Bool) :
      StepShape s ((s.sampled.setReg (rcField w) (s.pc + 4)).setPc
        (if taken = true then relativeAddress s lit else s.pc + 4))
  | platform (hruns : RunsPlatformPrivileged s) (e : PrivEffect) : StepShape s (applyPriv e s.sampled)

/-- Everything a step that answers can lead to. -/
theorem stepShape_of_step {s t : State} (h : step s = .next t) : StepShape s t := by
  obtain ⟨-, rfl⟩ | ⟨hirq, w, hfetch, hword⟩ := step_cases h
  · exact .trap .interrupt
  rw [fetch_sampled] at hfetch
  obtain ⟨i, hdecode, hexec⟩ | ⟨-, rfl⟩ := hword
  · obtain ⟨rc, v, hdest, rfl⟩ | ⟨rc, lit, ra, rfl, -, rfl⟩ | ⟨ra, rc, rfl, rfl⟩ | ⟨rc, lit, taken, hdest, rfl⟩ | rfl |
      ⟨hmode, hpriv, rest, e, rfl, rfl⟩ := exec_cases hexec
    · rw [destination_of_decode hdecode hdest]
      exact .result hirq hfetch v
    · exact .store hirq hfetch hdecode
    · exact .jump hirq hfetch hdecode (destination_of_decode hdecode rfl)
    · rw [destination_of_decode hdecode hdest]
      exact .branch hirq hfetch lit taken
    · exact .trap .illegalInstruction
    · exact .platform ⟨hirq, hmode, hpriv, w, hfetch, (of_decode_eq_ok hdecode).1.symm⟩ e
  · exact .trap .illegalInstruction

/-! ### Parameters and input (10_state.md R33, 00_scope.md R2) -/

theorem StepShape.cfg_eq {s t : State} (h : StepShape s t) : t.cfg = s.cfg := by
  cases h <;> simp

theorem StepShape.irq_eq {s t : State} (h : StepShape s t) : t.irq = irqLater s.irq := by
  cases h <;> simp

/-- Settles O54. -/
theorem stepKeepsParameters : Obligations.StepKeepsParameters :=
  fun _ _ h => ⟨(stepShape_of_step h).cfg_eq, (stepShape_of_step h).irq_eq⟩

/-! ### The invariant (R27, R228) -/

theorem wordAddress_mod_four (a : Word) : (wordAddress a).toNat % 4 = 0 := by
  rw [wordAddress_eq]
  exact alignDown_mod a

theorem trapVector_mod_four {c : Config} (h : c.wellFormed = true) (tr : Trap) : (trapVector c tr).toNat % 4 = 0 := by
  simp only [Config.wellFormed, Bool.and_eq_true, decide_eq_true_eq] at h
  obtain ⟨⟨-, hillop⟩, hirq⟩ := h
  cases tr
  · exact hillop
  · exact hirq

/-- Every shape keeps memory in canonical form. -/
theorem StepShape.mem_wf {s t : State} (h : StepShape s t) (hwf : s.mem.wf) : t.mem.wf := by
  cases h with
  | trap tr => simpa using hwf
  | result hirq hfetch v => simpa using hwf
  | store hirq hfetch hdecode => exact writeWord_wf _ _ _ _ hwf (wordAddress_add_three _)
  | jump hirq hfetch hdecode hrc => simpa using hwf
  | branch hirq hfetch lit taken => simpa using hwf
  | platform hruns e => exact applyPriv_wf e s.sampled hwf

/-- Every shape leaves `pc` at a multiple of 4. -/
theorem StepShape.pc_mod_four {s t : State} (h : StepShape s t) (hpc : s.pc.toNat % 4 = 0)
    (hcfg : s.cfg.wellFormed = true) : t.pc.toNat % 4 = 0 := by
  have hnext : (s.pc + 4).toNat % 4 = 0 := add_mod_four _ _ hpc (by decide)
  cases h with
  | trap tr => simpa using trapVector_mod_four hcfg tr
  | result hirq hfetch v => simpa using hnext
  | store hirq hfetch hdecode => simpa using hnext
  | jump hirq hfetch hdecode hrc => exact wordAddress_mod_four _
  | branch hirq hfetch lit taken =>
    rw [setPc_pc]
    split
    · exact relativeAddress_mod_four s lit hpc
    · exact hnext
  | platform hruns e => exact applyPriv_pc_mod_four e s.sampled

/-- Settles O52. -/
theorem stepKeepsInvariant : Obligations.StepKeepsInvariant := by
  rintro s t ⟨hwf, hpc, hcfg⟩ h
  have hshape := stepShape_of_step h
  exact ⟨hshape.mem_wf hwf, hshape.pc_mod_four hpc hcfg, hshape.cfg_eq ▸ hcfg⟩

/-- Settles O53, by induction on the number of steps. -/
theorem runKeepsInvariant : Obligations.RunKeepsInvariant := by
  intro k
  induction k with
  | zero =>
    rintro s _ hinv ⟨⟩
    exact hinv
  | succ k ih =>
    intro s t hinv h
    obtain ⟨u, hstep, hrun⟩ := andThen_eq_next.1 h
    exact ih u t (stepKeepsInvariant s u hinv hstep) hrun

/-! ### What writes memory (R46, R207) -/

/-- Settles O55: of the shapes only a store and a platform's own instruction touch memory, and a store leaves every byte
outside its word. -/
theorem onlyStoreWritesMemory : Obligations.OnlyStoreWritesMemory := by
  intro s t a hwf h hchanged
  cases stepShape_of_step h with
  | trap tr => exact absurd (by simp) hchanged
  | result hirq hfetch v => exact absurd (by simp) hchanged
  | store hirq hfetch hdecode =>
    refine .inl ⟨hirq, _, _, _, _, hfetch, hdecode, ?_⟩
    rw [advance_mem, setMem_mem, read_writeWord _ _ _ _ _ hwf (wordAddress_add_three _)] at hchanged
    by_contra hout
    exact hchanged (if_neg hout)
  | jump hirq hfetch hdecode hrc => exact absurd (by simp) hchanged
  | branch hirq hfetch lit taken => exact absurd (by simp) hchanged
  | platform hruns e => exact .inr hruns

/-! ### What writes a register (R21) -/

/-- A register that reads otherwise after a write is the one written. -/
theorem eq_of_reg_setReg_ne {s : State} {rc r : Reg} {v : Word} (h : (s.setReg rc v).reg r ≠ s.reg r) : r = rc := by
  by_contra hr
  exact h (reg_setReg_other s rc r v hr)

theorem reg_takeTrap_xp (tr : Trap) (s : State) : (takeTrap tr s).reg xp = s.pc + 4 :=
  (reg_takeTrap tr s xp).trans ((if_neg (by decide)).trans (if_pos rfl))

/-- Settles O56. -/
theorem stepWritesOneRegister : Obligations.StepWritesOneRegister := by
  intro s t r h hchanged
  cases stepShape_of_step h with
  | trap tr =>
    refine .inr (.inl ⟨eq_of_reg_setReg_ne (s := s.sampled) hchanged, ?link, takeTrap_mode _ _, ?vector⟩)
    case link => exact reg_takeTrap_xp tr s.sampled
    case vector => cases tr <;> simp [trapVector]
  | result hirq hfetch v => exact .inl ⟨_, hirq, hfetch, eq_of_reg_setReg_ne (s := s.sampled) hchanged⟩
  | store hirq hfetch hdecode => exact absurd (by simp) hchanged
  | jump hirq hfetch hdecode hrc =>
    exact .inl ⟨_, hirq, hfetch, (eq_of_reg_setReg_ne (s := s.sampled) hchanged).trans hrc⟩
  | branch hirq hfetch lit taken => exact .inl ⟨_, hirq, hfetch, eq_of_reg_setReg_ne (s := s.sampled) hchanged⟩
  | platform hruns e => exact .inr (.inr hruns)

/-! ### What changes the mode (R28, R236, R240) -/

/-- A trap's entry, in the terms of the statements. -/
theorem takeTrap_trapEntered (tr : Trap) (s : State) : TrapEntered s (takeTrap tr s) (trapVector s.cfg tr) :=
  ⟨reg_takeTrap tr s, takeTrap_pc tr s, takeTrap_mode tr s, fun a => by rw [takeTrap_mem], takeTrap_irq tr s,
    takeTrap_cfg tr s⟩

/-- Under a JMP_MODE the spec names, a jump from user mode stays there (R236). -/
theorem jmpMode_user {c : Config} (h : c.jmpMode ≠ .platform) (t : Word) : jmpMode c .user t = .user := by
  unfold jmpMode
  split
  · rfl
  · exact absurd ‹_› h
  · rfl

/-- Under a JMP_MODE the spec names, a jump leaves supervisor mode only to a target with bit 31 clear (R236). -/
theorem bit31_of_jmpMode_supervisor {c : Config} (h : c.jmpMode ≠ .platform) {t : Word}
    (ht : jmpMode c .supervisor t = .user) : t.getLsbD 31 = false := by
  unfold jmpMode at ht
  split at ht
  · cases ht
  · exact absurd ‹_› h
  · simpa using ht

/-- A step into supervisor mode is a trap's entry. -/
theorem StepShape.trapEntered_of_supervisor {s t : State} (h : StepShape s t) (hcfg : s.cfg.jmpMode ≠ .platform)
    (hs : s.mode = .user) (ht : t.mode = .supervisor) : ∃ tr, TrapEntered s.sampled t (trapVector s.cfg tr) := by
  cases h with
  | trap tr => exact ⟨tr, takeTrap_trapEntered tr s.sampled⟩
  | result hirq hfetch v => simp [hs] at ht
  | store hirq hfetch hdecode => simp [hs] at ht
  | jump hirq hfetch hdecode hrc => simp [hs, jmpMode_user hcfg] at ht
  | branch hirq hfetch lit taken => simp [hs] at ht
  | platform hruns e =>
    obtain ⟨-, hmode, -⟩ := hruns
    rw [hs] at hmode
    cases hmode

/-- A step out of supervisor mode is a JMP below bit 31 or a platform's own instruction. -/
theorem StepShape.jmp_of_user {s t : State} (h : StepShape s t) (hcfg : s.cfg.jmpMode ≠ .platform)
    (hs : s.mode = .supervisor) (ht : t.mode = .user) :
    (∃ w ra rc, fetch s = .next w ∧ decode w = .ok (.jmp ra rc) ∧ (s.reg ra).getLsbD 31 = false) ∨
      RunsPlatformPrivileged s := by
  cases h with
  | trap tr => simp at ht
  | result hirq hfetch v => simp [hs] at ht
  | store hirq hfetch hdecode => simp [hs] at ht
  | jump hirq hfetch hdecode hrc =>
    rw [setPc_mode, setMode_mode, hs] at ht
    exact .inl ⟨_, _, _, hfetch, hdecode, bit31_of_jmpMode_supervisor hcfg ht⟩
  | branch hirq hfetch lit taken => simp [hs] at ht
  | platform hruns e => exact .inr hruns

/-- Settles O57. -/
theorem modeChangesOnlyByTrapOrJmp : Obligations.ModeChangesOnlyByTrapOrJmp := by
  intro s t hcfg h
  refine ⟨fun hs ht => ?_, (stepShape_of_step h).jmp_of_user hcfg⟩
  obtain ⟨tr, htrap⟩ := (stepShape_of_step h).trapEntered_of_supervisor hcfg hs ht
  cases tr with
  | illegalInstruction => exact ⟨_, .inl rfl, htrap⟩
  | interrupt => exact ⟨_, .inr rfl, htrap⟩

end Sys2Proof.Machine

/-! PROOFS. The mode restricts nothing but opcode 0x00 (20_memory.md R49, 60_exceptions.md R240). Two answers that
differ only in the mode become equal when their modes are forgotten; each shared operation has this property, and the
instructions are made of them. -/

namespace Sys2Proof.Machine

/-- An answer with the mode of its state put to user mode: what is left when the mode is not looked at. -/
def forgetMode (r : Result) : Result := andThen r fun t => .next (t.setMode .user)

/-- A computation whose outcome does not depend on the mode, but for the mode itself. -/
def ModeBlind (f : State → Result) : Prop := ∀ (s : State) (m : Mode), forgetMode (f (s.setMode m)) = forgetMode (f s)

/-! ### The shared operations -/

theorem writeResult_modeBlind (rc : Reg) (v : State → Word) (hv : ∀ s m, v (s.setMode m) = v s) :
    ModeBlind fun s => writeResult s rc (v s) := by
  intro s m
  simp only [hv]
  simp only [writeResult, setReg_setMode]
  rfl

theorem raiseIllegal_modeBlind : ModeBlind raiseIllegal := by
  intro s m
  simp only [raiseIllegal, takeTrap, setMode_pc, setReg_setMode]
  rfl

theorem ifPresent_modeBlind (present : Config → Bool) {f : State → Result} (hf : ModeBlind f) :
    ModeBlind fun s => ifPresent (present s.cfg) s (f s) := by
  intro s m
  simp only [setMode_cfg]
  cases present s.cfg with
  | true => exact hf s m
  | false => exact raiseIllegal_modeBlind s m

/-- What stops or goes on by a value the mode does not change, goes on blind to the mode. -/
theorem andThen_modeBlind {α : Type} {x : State → Answer α} {f : α → State → Result}
    (hx : ∀ s m, x (s.setMode m) = x s) (hf : ∀ a, ModeBlind (f a)) :
    ModeBlind fun s => andThen (x s) fun a => f a s := by
  intro s m
  simp only [hx]
  cases x s with
  | next a => exact hf a s m
  | fault r => rfl
  | refused r => rfl

theorem loadInto_modeBlind (rc : Reg) (ea : State → Word) (hea : ∀ s m, ea (s.setMode m) = ea s) :
    ModeBlind fun s => loadInto s (ea s) rc :=
  andThen_modeBlind (fun s m => by rw [hea]; exact memRead_congr s (s.setMode m) (ea s) rfl rfl)
    fun w => writeResult_modeBlind rc (fun _ => w) fun _ _ => rfl

theorem storeFrom_modeBlind (ea v : State → Word) (hea : ∀ s m, ea (s.setMode m) = ea s)
    (hv : ∀ s m, v (s.setMode m) = v s) : ModeBlind fun s => storeFrom s (ea s) (v s) := by
  intro s m
  have hchecked : checkedAddress (s.setMode m) (ea s) = checkedAddress s (ea s) := rfl
  simp only [hea, hv, storeFrom, memWrite, hchecked]
  cases checkedAddress s (ea s) <;> rfl

theorem jumpLinked_modeBlind (rc : Reg) (target : State → Word) (ht : ∀ s m, target (s.setMode m) = target s) :
    ModeBlind fun s => jumpLinked s (target s) rc := by
  intro s m
  have haddress : jumpAddress (s.setMode m) (target s) = jumpAddress s (target s) := rfl
  simp only [ht, jumpLinked, haddress, setReg_setMode]
  cases jumpAddress s (target s) <;> rfl

theorem branchLinked_modeBlind (rc : Reg) (taken : State → Bool) (target : State → Word)
    (htaken : ∀ s m, taken (s.setMode m) = taken s) (ht : ∀ s m, target (s.setMode m) = target s) :
    ModeBlind fun s => branchLinked s (taken s) (target s) rc := by
  intro s m
  simp only [branchLinked, htaken, ht, setReg_setMode]
  rfl

/-! ### The instructions -/

theorem division_modeBlind (rc : Reg) (a b : State → Word) (ha : ∀ s m, a (s.setMode m) = a s)
    (hb : ∀ s m, b (s.setMode m) = b s) :
    ModeBlind fun s => andThen (divAnswer s.cfg (a s) (b s)) fun r => writeResult s rc r :=
  andThen_modeBlind (fun s m => by rw [ha, hb, setMode_cfg])
    fun r => writeResult_modeBlind rc (fun _ => r) fun _ _ => rfl

/-- Every instruction but PRIV is blind to the mode. -/
theorem exec_modeBlind (i : Instr) (hpriv : ∀ rest, i ≠ .priv rest) : ModeBlind (exec i) := by
  cases i
  case priv rest => exact absurd rfl (hpriv rest)
  case ld ra lit rc => exact loadInto_modeBlind rc (baseAddress · ra lit) fun _ _ => rfl
  case ldr lit rc => exact loadInto_modeBlind rc (relativeAddress · lit) fun _ _ => rfl
  case st rc lit ra => exact storeFrom_modeBlind (baseAddress · ra lit) (·.reg rc) (fun _ _ => rfl) fun _ _ => rfl
  case jmp ra rc => exact jumpLinked_modeBlind rc (·.reg ra) fun _ _ => rfl
  case beq ra lit rc =>
    exact branchLinked_modeBlind rc (fun s => zWire (s.reg ra)) (relativeAddress · lit) (fun _ _ => rfl) fun _ _ => rfl
  case bne ra lit rc =>
    exact branchLinked_modeBlind rc (fun s => !zWire (s.reg ra)) (relativeAddress · lit) (fun _ _ => rfl) fun _ _ => rfl
  case mul ra rb rc =>
    exact ifPresent_modeBlind (·.optional.mul) (writeResult_modeBlind rc _ fun _ _ => rfl)
  case mulc ra lit rc =>
    exact ifPresent_modeBlind (·.optional.mulc) (writeResult_modeBlind rc _ fun _ _ => rfl)
  case div ra rb rc =>
    exact ifPresent_modeBlind (·.optional.div)
      (division_modeBlind rc (·.reg ra) (·.reg rb) (fun _ _ => rfl) fun _ _ => rfl)
  case divc ra lit rc =>
    exact ifPresent_modeBlind (·.optional.divc)
      (division_modeBlind rc (·.reg ra) (fun _ => sext lit) (fun _ _ => rfl) fun _ _ => rfl)
  all_goals exact writeResult_modeBlind _ _ fun _ _ => rfl

/-- Settles O58. -/
theorem modeRestrictsOnlyPrivileged : Obligations.ModeRestrictsOnlyPrivileged :=
  fun i s m hpriv => exec_modeBlind i hpriv s m

end Sys2Proof.Machine

/-! PROOFS. The control-signal table is the machine (45_control_logic.md R200 to R213). Each column drives the datapath
to the meaning of its instructions; and the column of a word is the one of the instruction it decodes to. -/

namespace Sys2Proof.Machine

/-! ### What a fetched word does -/

theorem execWord_of_decode {w : Word} {i : Instr} (h : decode w = .ok i) (s : State) : execWord w s = exec i s := by
  simp only [execWord, h]

theorem execWord_of_unassigned {w : Word} (h : opcodeField w ∈ unassignedOpcodes) (s : State) :
    execWord w s = raiseIllegal s := by
  simp only [execWord, decode_of_unassigned h]

/-- All register forms in one rule (R100, R163): the operands' answer into `rc`, where the implementation has it. -/
theorem exec_registerForm (f : AluOp) (ra rb rc : Reg) (s : State) :
    exec (f.registerForm ra rb rc) s = ifPresent (hasOp s.cfg f) s
      (andThen (aluAnswer s.cfg (.f f) (s.reg ra) (s.reg rb)) fun r => writeResult s rc r) := by
  cases f <;> rfl

/-- All literal forms in one rule (R120, R163). -/
theorem exec_literalForm (f : AluOp) (ra : Reg) (lit : Lit) (rc : Reg) (s : State) :
    exec (f.literalForm ra lit rc) s = ifPresent (hasOpc s.cfg f) s
      (andThen (aluAnswer s.cfg (.f f) (s.reg ra) (sext lit)) fun r => writeResult s rc r) := by
  cases f <;> rfl

/-- Opcode 0x00 is an illegal instruction in user mode and where PRIV_EXEC makes it one (R160). -/
theorem exec_priv_illegal {s : State} (h : s.mode = .user ∨ s.cfg.privExec = .illegalInstruction) (rest : BitVec 26) :
    exec (.priv rest) s = raiseIllegal s := by
  show execPriv rest s = raiseIllegal s
  unfold execPriv
  cases hm : s.mode with
  | user => rfl
  | supervisor =>
    rw [hm] at h
    rw [h.resolve_left (by decide)]

/-! ### The columns (R202 to R210) -/

/-- The end shared by the operate class and the loads, with the next `pc` read before the write (R100). -/
theorem writeResult_eq_setPc (s : State) (rc : Reg) (v : Word) :
    writeResult s rc v = .next ((s.setReg rc v).setPc (s.pc + 4)) := by
  simp only [writeResult, State.advance, setReg_pc]

/-- The store with the next `pc` read before the write (R141). -/
theorem storeFrom_eq_setPc (s : State) (ea v : Word) :
    storeFrom s ea v = andThen (memWrite s ea v) fun t => .next (t.setPc (s.pc + 4)) := by
  simp only [storeFrom, memWrite]
  cases checkedAddress s ea <;> rfl

section Columns

variable (fill : DontCare) (z : Bool) (w : Word) (s : State)

theorem datapath_op (f : AluOp) : datapath fill (signals z (.op f)) w s =
    andThen (aluAnswer s.cfg (.f f) (s.reg (raField w)) (s.reg (rbField w))) fun r => writeResult s (rcField w) r := by
  simp only [writeResult_eq_setPc]
  rfl

theorem datapath_opc (f : AluOp) : datapath fill (signals z (.opc f)) w s =
    andThen (aluAnswer s.cfg (.f f) (s.reg (raField w)) (sext (litField w))) fun r => writeResult s (rcField w) r := by
  simp only [writeResult_eq_setPc]
  rfl

theorem datapath_ld : datapath fill (signals z .ld) w s =
    loadInto s (baseAddress s (raField w) (litField w)) (rcField w) := by
  simp only [loadInto, writeResult_eq_setPc]
  rfl

theorem datapath_ldr : datapath fill (signals z .ldr) w s =
    loadInto s (relativeAddress s (litField w)) (rcField w) := by
  simp only [loadInto, writeResult_eq_setPc]
  rfl

theorem datapath_st : datapath fill (signals z .st) w s =
    storeFrom s (baseAddress s (raField w) (litField w)) (s.reg (rcField w)) := by
  rw [storeFrom_eq_setPc]
  rfl

theorem datapath_jmp : datapath fill (signals z .jmp) w s = jumpLinked s (s.reg (raField w)) (rcField w) := rfl

theorem datapath_beq : datapath fill (signals z .beq) w s =
    branchLinked s z (relativeAddress s (litField w)) (rcField w) := by
  cases z <;> rfl

theorem datapath_bne : datapath fill (signals z .bne) w s =
    branchLinked s (!z) (relativeAddress s (litField w)) (rcField w) := by
  cases z <;> rfl

theorem datapath_illop : datapath fill (signals z .illop) w s = raiseIllegal s := rfl

theorem datapath_irq : datapath fill (signals z .irq) w s = .next (takeTrap .interrupt s) := rfl

end Columns

/-! ### The column of a word (R201) -/

/-- An opcode is its row of the map and its column there (R65, R67). -/
theorem opcode_of_row : ∀ op : BitVec 6, op = op.extractLsb' 4 2 ++ op.extractLsb' 0 4 := by decide

/-- The row `01xxxx` of the opcode map has six instructions (R67, R72). -/
theorem unassigned_of_otherRow : ∀ op : BitVec 6, op.extractLsb' 4 2 = 0b01#2 →
    op.extractLsb' 0 4 ≠ 0x8#4 → op.extractLsb' 0 4 ≠ 0x9#4 → op.extractLsb' 0 4 ≠ 0xB#4 →
    op.extractLsb' 0 4 ≠ 0xD#4 → op.extractLsb' 0 4 ≠ 0xE#4 → op.extractLsb' 0 4 ≠ 0xF#4 →
    op ∈ unassignedOpcodes := by decide

/-- The row `00xxxx` of the opcode map has opcode 0x00 alone (R67, R72). -/
theorem unassigned_of_firstRow : ∀ op : BitVec 6, op.extractLsb' 4 2 ≠ 0b10#2 → op.extractLsb' 4 2 ≠ 0b11#2 →
    op.extractLsb' 4 2 ≠ 0b01#2 → op ≠ 0x00#6 → op ∈ unassignedOpcodes := by decide

/-- The column of a fetched word drives the datapath to what the word does, where the table has a column for it. -/
theorem datapath_columnOf (fill : DontCare) (w : Word) (s : State)
    (hpriv : s.mode = .user ∨ s.cfg.privExec = .illegalInstruction) :
    datapath fill (signals (zWire (s.reg (raField w))) (columnOf s.cfg w)) w s = execWord w s := by
  simp only [columnOf]
  split
  case h_1 hrow =>
    cases hf : aluOpOf ((opcodeField w).extractLsb' 0 4) with
    | none => exact (execWord_of_unassigned ((opcode_registerRow _ hrow).2 hf) s).symm
    | some f =>
      dsimp only
      rw [execWord_of_decode (decode_registerForm hrow hf), exec_registerForm]
      cases hasOp s.cfg f with
      | true => exact datapath_op fill _ w s f
      | false => rfl
  case h_2 hrow =>
    cases hf : aluOpOf ((opcodeField w).extractLsb' 0 4) with
    | none => exact (execWord_of_unassigned ((opcode_literalRow _ hrow).2 hf) s).symm
    | some f =>
      dsimp only
      rw [execWord_of_decode (decode_literalForm hrow hf), exec_literalForm]
      cases hasOpc s.cfg f with
      | true => exact datapath_opc fill _ w s f
      | false => rfl
  case h_3 hrow =>
    have hop (low : BitVec 4) (hlow : (opcodeField w).extractLsb' 0 4 = low) : opcodeField w = 0b01#2 ++ low := by
      rw [← hrow, ← hlow]
      exact opcode_of_row _
    split
    case h_1 hlow =>
      rw [execWord_of_decode (decode_of_opcode (.ld 0 0 0) (hop _ hlow))]
      exact datapath_ld fill _ w s
    case h_2 hlow =>
      rw [execWord_of_decode (decode_of_opcode (.st 0 0 0) (hop _ hlow))]
      exact datapath_st fill _ w s
    case h_3 hlow =>
      rw [execWord_of_decode (decode_of_opcode (.jmp 0 0) (hop _ hlow))]
      exact datapath_jmp fill _ w s
    case h_4 hlow =>
      rw [execWord_of_decode (decode_of_opcode (.beq 0 0 0) (hop _ hlow))]
      exact datapath_beq fill _ w s
    case h_5 hlow =>
      rw [execWord_of_decode (decode_of_opcode (.bne 0 0 0) (hop _ hlow))]
      exact datapath_bne fill _ w s
    case h_6 hlow =>
      rw [execWord_of_decode (decode_of_opcode (.ldr 0 0) (hop _ hlow))]
      exact datapath_ldr fill _ w s
    case h_7 h8 h9 hB hD hE hF =>
      exact (execWord_of_unassigned (unassigned_of_otherRow _ hrow h8 h9 hB hD hE hF) s).symm
  case h_4 h2 h3 h1 =>
    by_cases hzero : opcodeField w = 0x00#6
    · rw [execWord_of_decode (decode_of_opcode (.priv 0) hzero)]
      exact (exec_priv_illegal hpriv _).symm
    · exact (execWord_of_unassigned (unassigned_of_firstRow _ h2 h3 h1 hzero) s).symm

/-- Settles O59. -/
theorem controlTableIsTheMachine : Obligations.ControlTableIsTheMachine := by
  intro fill s hpriv
  unfold controlStep step
  split
  · exact datapath_irq fill _ fill.iw s.sampled
  · cases fetch s.sampled with
    | next w => exact datapath_columnOf fill w s.sampled hpriv
    | fault r => rfl
    | refused r => rfl

end Sys2Proof.Machine

/-! PROOFS. The arithmetic of the operate class (40_operate.md R103 to R115, 41_operate_const.md R122 to R134): sums,
differences, products, quotients, the signed orders and the shifts. Decoding, completion and frame are proved once for
all operations; each obligation then adds what its own function computes. -/

namespace Sys2Proof.Machine

/-! ### The rules shared by all operations (R100, R120) -/

theorem decode_registerForm_of_opcode (f : AluOp) {w : Word} (h : opcodeField w = (f.registerForm 0 0 0).opcode) :
    decode w = .ok (f.registerForm (raField w) (rbField w) (rcField w)) :=
  (decode_of_opcode _ h).trans (by cases f <;> rfl)

theorem decode_literalForm_of_opcode (f : AluOp) {w : Word} (h : opcodeField w = (f.literalForm 0 0 0).opcode) :
    decode w = .ok (f.literalForm (raField w) (litField w) (rcField w)) :=
  (decode_of_opcode _ h).trans (by cases f <;> rfl)

theorem wellFormed_registerForm (f : AluOp) (ra rb rc : Reg) (c : Config) :
    (f.registerForm ra rb rc).wellFormed c = hasOp c f := by
  cases f <;> rfl

theorem wellFormed_literalForm (f : AluOp) (ra : Reg) (lit : Lit) (rc : Reg) (c : Config) :
    (f.literalForm ra lit rc).wellFormed c = hasOpc c f := by
  cases f <;> rfl

/-- Every operation but the division has a result on all operands. -/
theorem aluAnswer_of_ne_div {f : AluOp} (hf : f ≠ .div) (c : Config) (a b : Word) :
    aluAnswer c (.f f) a b = .next (alu f a b) := by
  cases f
  case div => exact absurd rfl hf
  all_goals rfl

/-- The register-form rule (R100) of any operation but the division, for whatever its function satisfies. -/
theorem registerForm_of_alu (f : AluOp) (hf : f ≠ .div) {rel : Word → Word → Word → Prop}
    (hrel : ∀ a b, rel a b (alu f a b)) : RegisterForm (f.registerForm 0 0 0).opcode f.registerForm rel := by
  refine ⟨fun w => decode_registerForm_of_opcode f, fun ra rb rc s hwf => ?_⟩
  rw [wellFormed_registerForm] at hwf
  rw [exec_registerForm, hwf, aluAnswer_of_ne_div hf]
  obtain ⟨t, hnext, hwrites⟩ := writeResult_writesOnly s rc (alu f (s.reg ra) (s.reg rb))
  exact ⟨t, _, hnext, hwrites, hrel _ _⟩

/-- The literal-form rule (R120) of any operation but the division, for whatever its function satisfies. -/
theorem literalForm_of_alu (f : AluOp) (hf : f ≠ .div) {rel : Word → Lit → Word → Prop}
    (hrel : ∀ a lit, rel a lit (alu f a (sext lit))) :
    LiteralForm (f.literalForm 0 0 0).opcode f.literalForm rel := by
  refine ⟨fun w => decode_literalForm_of_opcode f, fun ra lit rc s hwf => ?_⟩
  rw [wellFormed_literalForm] at hwf
  rw [exec_literalForm, hwf, aluAnswer_of_ne_div hf]
  obtain ⟨t, hnext, hwrites⟩ := writeResult_writesOnly s rc (alu f (s.reg ra) (sext lit))
  exact ⟨t, _, hnext, hwrites, hrel _ _⟩

/-! ### Sums, differences and products modulo 2^32 (R103 to R105) -/

/-- The extended literal is the signed literal (R69). -/
theorem toInt_sext (lit : Lit) : (sext lit).toInt = lit.toInt := BitVec.toInt_signExtend_of_le (by decide)

theorem aluAdd_eq_ofInt (a b : Word) : aluAdd a b = BitVec.ofInt 32 (a.toInt + b.toInt) :=
  BitVec.eq_of_toInt_eq (by rw [aluAdd, BitVec.toInt_add, BitVec.toInt_ofInt])

theorem aluSub_eq_ofInt (a b : Word) : aluSub a b = BitVec.ofInt 32 (a.toInt - b.toInt) :=
  BitVec.eq_of_toInt_eq (by rw [aluSub, BitVec.toInt_sub, BitVec.toInt_ofInt])

theorem aluMul_eq_ofInt (a b : Word) : aluMul a b = BitVec.ofInt 32 (a.toInt * b.toInt) :=
  BitVec.eq_of_toInt_eq (by rw [aluMul, BitVec.toInt_mul, BitVec.toInt_ofInt])

/-- A difference of unsigned values, borrow and all (R104). -/
theorem toNat_aluSub (a b : Word) : ((aluSub a b).toNat : Int) = ((a.toNat : Int) - b.toNat) % 2 ^ 32 := by
  have ha := a.isLt
  have hb := b.isLt
  rw [aluSub, BitVec.toNat_sub]
  omega

/-- Settles O11. -/
theorem addWraps : Obligations.AddWraps :=
  ⟨registerForm_of_alu .add (by decide) BitVec.toNat_add,
    literalForm_of_alu .add (by decide) fun a lit => by rw [← toInt_sext]; exact aluAdd_eq_ofInt a (sext lit)⟩

/-- Settles O12. -/
theorem subWraps : Obligations.SubWraps :=
  ⟨registerForm_of_alu .sub (by decide) toNat_aluSub,
    literalForm_of_alu .sub (by decide) fun a lit => by rw [← toInt_sext]; exact aluSub_eq_ofInt a (sext lit)⟩

/-- Settles O13. -/
theorem mulKeepsLowWord : Obligations.MulKeepsLowWord :=
  ⟨registerForm_of_alu .mul (by decide) fun a b => ⟨BitVec.toNat_mul a b, aluMul_eq_ofInt a b⟩,
    literalForm_of_alu .mul (by decide) fun a lit => by rw [← toInt_sext]; exact aluMul_eq_ofInt a (sext lit)⟩

/-! ### The signed orders (R111, R112) -/

theorem aluCmplt_eq_ite (a b : Word) : aluCmplt a b = if a.toInt < b.toInt then 1 else 0 := by
  simp only [aluCmplt, truth, decide_eq_true_eq]

theorem aluCmple_eq_ite (a b : Word) : aluCmple a b = if a.toInt ≤ b.toInt then 1 else 0 := by
  simp only [aluCmple, truth, decide_eq_true_eq]

/-- Settles O23. -/
theorem cmpltIsSigned : Obligations.CmpltIsSigned :=
  ⟨registerForm_of_alu .cmplt (by decide) aluCmplt_eq_ite,
    literalForm_of_alu .cmplt (by decide) fun a lit => by rw [← toInt_sext]; exact aluCmplt_eq_ite a (sext lit)⟩

/-- Settles O24. -/
theorem cmpleIsSignedOrEqual : Obligations.CmpleIsSignedOrEqual := by
  refine ⟨registerForm_of_alu .cmple (by decide) fun a b => ?_,
    literalForm_of_alu .cmple (by decide) fun a lit => by rw [← toInt_sext]; exact aluCmple_eq_ite a (sext lit)⟩
  have horder : a.toInt ≤ b.toInt ↔ a.toInt < b.toInt ∨ a = b := by rw [le_iff_lt_or_eq, BitVec.toInt_inj]
  exact (aluCmple_eq_ite a b).trans (if_congr horder rfl rfl)

/-! ### The shifts (R113 to R115) -/

theorem shiftAmount_eq (b : Word) : shiftAmount b = b.toNat % 32 := by
  simp only [shiftAmount, BitVec.extractLsb'_toNat, Nat.shiftRight_zero, Nat.reducePow]

/-- The extension does not change the low 5 bits of a literal. -/
theorem shiftAmount_sext (lit : Lit) : shiftAmount (sext lit) = lit.toNat % 32 := by
  have hbits : (sext lit).extractLsb' 0 5 = lit.extractLsb' 0 5 := by
    apply BitVec.eq_of_getLsbD_eq
    intro i hi
    simp only [BitVec.getLsbD_extractLsb', getLsbD_sext lit (show 0 + i < 32 by omega), litBit,
      if_pos (show 0 + i < 16 by omega)]
  rw [shiftAmount, hbits, BitVec.extractLsb'_toNat, Nat.shiftRight_zero]

theorem toNat_aluShl (a b : Word) : (aluShl a b).toNat = a.toNat * 2 ^ shiftAmount b % 2 ^ 32 := by
  rw [aluShl, BitVec.toNat_shiftLeft, Nat.shiftLeft_eq]

theorem toNat_aluShr (a b : Word) : (aluShr a b).toNat = a.toNat / 2 ^ shiftAmount b := by
  rw [aluShr, BitVec.toNat_ushiftRight, Nat.shiftRight_eq_div_pow]

theorem toInt_aluSra (a b : Word) : (aluSra a b).toInt = a.toInt.fdiv (2 ^ shiftAmount b) := by
  rw [aluSra, BitVec.toInt_sshiftRight, Int.shiftRight_eq_div_pow, Int.fdiv_eq_ediv_of_nonneg _ (by positivity)]
  norm_cast

/-- Settles O25. -/
theorem shlMultipliesByPowerOfTwo : Obligations.ShlMultipliesByPowerOfTwo :=
  ⟨registerForm_of_alu .shl (by decide) fun a b => by rw [← shiftAmount_eq]; exact toNat_aluShl a b,
    literalForm_of_alu .shl (by decide) fun a lit => by rw [← shiftAmount_sext]; exact toNat_aluShl a (sext lit)⟩

/-- Settles O26. -/
theorem shrDividesUnsigned : Obligations.ShrDividesUnsigned :=
  ⟨registerForm_of_alu .shr (by decide) fun a b => by rw [← shiftAmount_eq]; exact toNat_aluShr a b,
    literalForm_of_alu .shr (by decide) fun a lit => by rw [← shiftAmount_sext]; exact toNat_aluShr a (sext lit)⟩

/-- Settles O27. -/
theorem sraDividesTowardMinusInfinity : Obligations.SraDividesTowardMinusInfinity :=
  ⟨registerForm_of_alu .sra (by decide) fun a b => by rw [← shiftAmount_eq]; exact toInt_aluSra a b,
    literalForm_of_alu .sra (by decide) fun a lit => by rw [← shiftAmount_sext]; exact toInt_aluSra a (sext lit)⟩

/-! ### The division (R106) -/

/-- A quotient that is not zero is negative exactly when the signs differ. -/
theorem tdiv_neg_iff {a b : Int} (h : a.tdiv b ≠ 0) : a.tdiv b < 0 ↔ (a < 0) ≠ (b < 0) := by
  have hsign : (a.tdiv b).sign = a.sign * b.sign := by
    have hcases := Int.sign_tdiv a b
    split at hcases
    · exact absurd (Int.sign_eq_zero_iff_zero.1 hcases) h
    · exact hcases
  have ha : a ≠ 0 := by rintro rfl; exact h (Int.zero_tdiv b)
  have hb : b ≠ 0 := by rintro rfl; exact h (Int.tdiv_zero a)
  rw [← Int.sign_eq_neg_one_iff_neg, hsign]
  rcases lt_or_gt_of_ne ha with ha | ha <;> rcases lt_or_gt_of_ne hb with hb | hb
  · simp [Int.sign_eq_neg_one_of_neg, ha, hb]
  · simp [Int.sign_eq_neg_one_of_neg, Int.sign_eq_one_of_pos, ha, hb, hb.le]
  · simp [Int.sign_eq_neg_one_of_neg, Int.sign_eq_one_of_pos, ha, hb, ha.le]
  · simp [Int.sign_eq_one_of_pos, ha, hb]
    omega

/-- Division toward zero has the magnitude and the sign R106 states. -/
theorem isQuotient_tdiv (a b : Int) : IsQuotient a b (a.tdiv b) := by
  refine ⟨Int.natAbs_tdiv a b, ?_⟩
  by_cases hzero : a.tdiv b = 0
  · simp [hzero]
  · simp only [tdiv_neg_iff hzero, ne_eq, hzero, not_false_eq_true, and_true]

/-- The only quotient of two words' signed values that is no word's is 2^31, of -2^31 and -1 (R106). -/
theorem tdiv_in_range (a b : Word) (hoverflow : ¬ (a.toInt = -2 ^ 31 ∧ b.toInt = -1)) :
    -2 ^ 31 ≤ a.toInt.tdiv b.toInt ∧ a.toInt.tdiv b.toInt < 2 ^ 31 := by
  obtain ⟨hmagnitude, hsign⟩ := isQuotient_tdiv a.toInt b.toInt
  have hlow : -2 ^ 31 ≤ a.toInt := BitVec.le_toInt a
  have hhigh : a.toInt < 2 ^ 31 := BitVec.toInt_lt
  have hle : a.toInt.natAbs / b.toInt.natAbs ≤ a.toInt.natAbs := Nat.div_le_self _ _
  refine ⟨by omega, ?_⟩
  by_contra htop
  have hmax : a.toInt = -2 ^ 31 := by omega
  have hone : b.toInt.natAbs < 2 := by
    by_contra htwo
    have hhalf : a.toInt.natAbs / b.toInt.natAbs ≤ a.toInt.natAbs / 2 :=
      Nat.div_le_div_left (not_lt.1 htwo) (by decide)
    omega
  have hnonzero : b.toInt ≠ 0 := by
    intro h0
    rw [h0, Int.tdiv_zero] at htop
    omega
  have hneg := mt (tdiv_neg_iff (a := a.toInt) (b := b.toInt) (by omega)).2 (by omega)
  simp only [ne_eq, eq_iff_iff, not_not] at hneg
  omega

/-- Off the corners the value written is the quotient (R106). -/
theorem isQuotient_aluDiv (a b : Word) (hzero : b.toInt ≠ 0) (hoverflow : ¬ (a.toInt = -2 ^ 31 ∧ b.toInt = -1)) :
    IsQuotient a.toInt b.toInt (aluDiv a b).toInt := by
  have hcorner : divCornerCase a b = false := by simpa [divCornerCase, hzero] using hoverflow
  obtain ⟨hlow, hhigh⟩ := tdiv_in_range a b hoverflow
  rw [aluDiv, hcorner, if_neg (by decide), BitVec.toInt_ofInt_eq_self (by decide) hlow hhigh]
  exact isQuotient_tdiv _ _

/-- What R106 says of one division, for any two words. -/
theorem division_outcome (s : State) (rc : Reg) (a b : Word) :
    DivisionOutcome s rc a.toInt b.toInt (andThen (divAnswer s.cfg a b) fun r => writeResult s rc r) := by
  refine ⟨fun hresult => ?completes, fun hc hb => ?byZero, fun hc ha hb => ?overflow⟩
  case completes =>
    rw [divAnswer_of_result _ _ _ hresult]
    obtain ⟨t, hnext, hwrites⟩ := writeResult_writesOnly s rc (aluDiv a b)
    exact ⟨t, _, hnext, hwrites, isQuotient_aluDiv a b⟩
  case byZero =>
    rw [divAnswer_by_zero _ _ _ hc hb]
    rfl
  case overflow =>
    rw [divAnswer_overflow _ _ _ hc ha hb]
    rfl

theorem exec_div_of_present {s : State} (h : s.cfg.optional.div = true) (ra rb rc : Reg) :
    exec (.div ra rb rc) s = andThen (divAnswer s.cfg (s.reg ra) (s.reg rb)) fun r => writeResult s rc r := by
  show ifPresent s.cfg.optional.div s _ = _
  rw [h]
  rfl

theorem exec_divc_of_present {s : State} (h : s.cfg.optional.divc = true) (ra : Reg) (lit : Lit) (rc : Reg) :
    exec (.divc ra lit rc) s = andThen (divAnswer s.cfg (s.reg ra) (sext lit)) fun r => writeResult s rc r := by
  show ifPresent s.cfg.optional.divc s _ = _
  rw [h]
  rfl

/-- Settles O14. -/
theorem divTruncatesTowardZero : Obligations.DivTruncatesTowardZero := by
  refine ⟨fun w => decode_registerForm_of_opcode .div, fun w => decode_literalForm_of_opcode .div,
    fun ra rb rc s hwf => ?register, fun ra lit rc s hwf => ?literal⟩
  case register =>
    rw [exec_div_of_present hwf]
    exact division_outcome s rc (s.reg ra) (s.reg rb)
  case literal =>
    rw [exec_divc_of_present hwf, ← toInt_sext]
    exact division_outcome s rc (s.reg ra) (sext lit)

end Sys2Proof.Machine

/-! PROOFS. Addresses and word accesses: the two addressing modes (30_encoding.md R70, 42_other.md R146), the literal of
a label (R78), reads and writes of words (20_memory.md R40 to R47), and the loads and stores made of them (R140, R141,
R145). -/

namespace Sys2Proof.Machine

/-! ### The two addressing modes (R69, R70, R146) -/

/-- The extended literal as an integer narrowed to 32 bits (R69). -/
theorem sext_eq_ofInt (lit : Lit) : sext lit = BitVec.ofInt 32 lit.toInt := rfl

/-- A word is its unsigned value narrowed to 32 bits. -/
theorem ofInt_toNat (a : Word) : BitVec.ofInt 32 (a.toNat : Int) = a := by
  rw [BitVec.ofInt_natCast, BitVec.ofNat_toNat, BitVec.setWidth_eq]

theorem baseAddress_eq_ofInt (s : State) (ra : Reg) (lit : Lit) :
    baseAddress s ra lit = BitVec.ofInt 32 ((s.reg ra).toNat + lit.toInt) := by
  rw [BitVec.ofInt_add, ofInt_toNat, ← sext_eq_ofInt, baseAddress]

theorem relativeAddress_eq_ofInt (s : State) (lit : Lit) :
    relativeAddress s lit = BitVec.ofInt 32 (s.pc.toNat + 4 + 4 * lit.toInt) := by
  rw [BitVec.ofInt_add, BitVec.ofInt_add, BitVec.ofInt_mul, ofInt_toNat, ← sext_eq_ofInt, relativeAddress]
  rfl

/-- Settles O28. -/
theorem addressesAreExactSumsModuloTwoToThirtyTwo : Obligations.AddressesAreExactSumsModuloTwoToThirtyTwo :=
  fun s ra lit => ⟨baseAddress_eq_ofInt s ra lit, relativeAddress_eq_ofInt s lit⟩

/-! ### The literal of a label (R70, R78) -/

/-- Four times a literal does not wrap. -/
theorem toInt_four_mul_sext (lit : Lit) : (4 * sext lit).toInt = 4 * lit.toInt := by
  have hlow : -2 ^ 15 ≤ lit.toInt := BitVec.le_toInt lit
  have hhigh : lit.toInt < 2 ^ 15 := BitVec.toInt_lt
  rw [sext_eq_ofInt, show (4 : Word) = BitVec.ofInt 32 4 from rfl, ← BitVec.ofInt_mul]
  exact BitVec.toInt_ofInt_eq_self (by decide) (by omega) (by omega)

/-- A literal reaches a label exactly when the label lies four times the literal away (R70). -/
theorem relativeAddress_eq_iff (s : State) (lit : Lit) (label : Word) :
    relativeAddress s lit = label ↔ labelDistance s.pc label = 4 * lit.toInt := by
  rw [labelDistance, ← toInt_four_mul_sext, BitVec.toInt_inj, relativeAddress]
  constructor
  · rintro rfl
    rw [BitVec.add_comm, BitVec.add_sub_cancel]
  · intro h
    rw [← h, BitVec.add_comm, BitVec.sub_add_cancel]

/-- A label that fits is a literal's multiple of 4 away (R78, R79). -/
theorem labelFits_iff (at_ label : Word) :
    labelFits at_ label = true ↔
      labelDistance at_ label = 4 * (BitVec.ofInt 16 (labelDistance at_ label / 4)).toInt := by
  simp only [labelFits, literalFits, Bool.and_eq_true, decide_eq_true_eq]
  constructor
  · rintro ⟨hmod, hlow, hhigh⟩
    rw [BitVec.toInt_ofInt_eq_self (by decide) (by omega) (by omega)]
    omega
  · intro h
    have hlow : -2 ^ 15 ≤ (BitVec.ofInt 16 (labelDistance at_ label / 4)).toInt := BitVec.le_toInt _
    have hhigh : (BitVec.ofInt 16 (labelDistance at_ label / 4)).toInt < 2 ^ 15 := BitVec.toInt_lt
    omega

/-- The literal the assembler gives for a label reaches it (R78). -/
theorem relativeAddress_of_labelLiteral {s : State} {label : Word} {lit : Lit}
    (h : labelLiteral s.pc label = some lit) : relativeAddress s lit = label := by
  obtain ⟨hfits, rfl⟩ := Option.ite_some_none_eq_some.1 h
  exact (relativeAddress_eq_iff s _ label).2 ((labelFits_iff s.pc label).1 hfits)

/-- Where a literal reaches a label, the assembler gives one (R78). -/
theorem labelLiteral_of_relativeAddress {s : State} {label : Word} {lit : Lit} (h : relativeAddress s lit = label) :
    (labelLiteral s.pc label).isSome = true := by
  have hdistance := (relativeAddress_eq_iff s lit label).1 h
  have hfits : labelFits s.pc label = true := by
    rw [labelFits_iff, hdistance, Int.mul_ediv_cancel_left _ (by decide), BitVec.ofInt_toInt]
  rw [labelLiteral, if_pos hfits]
  rfl

/-- Settles O7. -/
theorem labelLiteralReachesLabel : Obligations.LabelLiteralReachesLabel := by
  intro s label
  refine ⟨fun l => relativeAddress_of_labelLiteral, fun hsome => ?_, fun ⟨l, hl⟩ => labelLiteral_of_relativeAddress hl⟩
  obtain ⟨l, hl⟩ := Option.isSome_iff_exists.1 hsome
  exact ⟨l, relativeAddress_of_labelLiteral hl⟩

/-! ### Where a word access stops (R42, R47) -/

theorem checkedAddress_of_not_dataAligned {s : State} {ea : Word} (h : ¬ DataAligned s ea) :
    checkedAddress s ea = .refused (.misalignedData ea) := by
  rw [checkedAddress, dataAddress_of_not_dataAligned s ea h, andThen_refused]

theorem checkedAddress_of_no_memory {s : State} {ea : Word} (h : DataAligned s ea)
    (hmem : memValid s.cfg (wordAddress ea) = false) :
    checkedAddress s ea = .fault (.noMemory (wordAddress ea)) := by
  rw [checkedAddress, dataAddress_of_dataAligned s ea h, andThen_next, hmem]
  rfl

theorem loadInto_of_not_dataAligned {s : State} {ea : Word} (rc : Reg) (h : ¬ DataAligned s ea) :
    loadInto s ea rc = .refused (.misalignedData ea) := by
  rw [loadInto, memRead, checkedAddress_of_not_dataAligned h, andThen_refused, andThen_refused]

theorem loadInto_of_no_memory {s : State} {ea : Word} (rc : Reg) (h : DataAligned s ea)
    (hmem : memValid s.cfg (wordAddress ea) = false) : loadInto s ea rc = .fault (.noMemory (wordAddress ea)) := by
  rw [loadInto, memRead, checkedAddress_of_no_memory h hmem, andThen_fault, andThen_fault]

theorem storeFrom_of_not_dataAligned {s : State} {ea : Word} (v : Word) (h : ¬ DataAligned s ea) :
    storeFrom s ea v = .refused (.misalignedData ea) := by
  rw [storeFrom, memWrite, checkedAddress_of_not_dataAligned h, andThen_refused, andThen_refused]

theorem storeFrom_of_no_memory {s : State} {ea : Word} (v : Word) (h : DataAligned s ea)
    (hmem : memValid s.cfg (wordAddress ea) = false) : storeFrom s ea v = .fault (.noMemory (wordAddress ea)) := by
  rw [storeFrom, memWrite, checkedAddress_of_no_memory h hmem, andThen_fault, andThen_fault]

/-! ### LD, LDR and ST (R140, R141, R145) -/

theorem exec_ld (ra : Reg) (lit : Lit) (rc : Reg) (s : State) :
    exec (.ld ra lit rc) s = loadInto s (baseAddress s ra lit) rc := rfl

theorem exec_ldr (lit : Lit) (rc : Reg) (s : State) :
    exec (.ldr lit rc) s = loadInto s (relativeAddress s lit) rc := rfl

/-- The displacement -4 from SP (R140, R141: the address of both examples). -/
theorem baseAddress_sp_of_eq {s : State} (h : s.reg sp = 0x1004) : baseAddress s sp 0xFFFC = 0x1000 := by
  rw [baseAddress, h]
  decide

/-- Settles O29. -/
theorem ldLoadsWord : Obligations.LdLoadsWord := by
  refine ⟨fun w => decode_of_opcode (.ld 0 0 0), fun ra lit s => baseAddress_eq_ofInt s ra lit,
    fun ra lit rc s => loadInto_of_accessible s _ rc,
    fun ra lit rc s => ⟨loadInto_of_not_dataAligned rc, loadInto_of_no_memory rc⟩, by decide,
    fun s hsp hmem hword => ?_⟩
  have hacc : Accessible s 0x1000 := accessible_of_aligned (by decide) hmem
  obtain ⟨t, hnext, hregs, -⟩ := loadInto_of_accessible s 0x1000 2 hacc
  exact ⟨t, by rw [exec_ld, baseAddress_sp_of_eq hsp, hnext], (hregs 2).trans hword⟩

/-- Settles O30. -/
theorem stStoresWord : Obligations.StStoresWord := by
  refine ⟨fun w => decode_of_opcode (.st 0 0 0), fun rc lit ra s hwf hacc => ?rule, by decide,
    fun s hwf hsp hvalue hmem => ?ex⟩
  case rule => exact storeFrom_storesOnly s _ (s.reg rc) hwf hacc
  case ex =>
    have hacc : Accessible s 0x1000 := accessible_of_aligned (by decide) hmem
    obtain ⟨t, hnext, -, -, -, -, hword, -⟩ := storeFrom_storesOnly s 0x1000 7 hwf hacc
    exact ⟨t, by rw [exec_st, baseAddress_sp_of_eq hsp, hvalue, hnext], hword⟩

/-- Settles O31. -/
theorem ldrLoadsRelative : Obligations.LdrLoadsRelative := by
  refine ⟨fun w => decode_of_opcode (.ldr 0 0), fun lit s => relativeAddress_mod_four s lit,
    fun lit rc s => loadInto_of_accessible s _ rc, by decide, fun s hpc => ?_⟩
  rw [relativeAddress, hpc]
  decide

/-- Settles O32. -/
theorem inaccessibleWordStops : Obligations.InaccessibleWordStops := by
  refine fun ra rc lit s => ⟨storeFrom_of_not_dataAligned _, storeFrom_of_no_memory _, fun hpc hmem => ?_⟩
  have haligned := relativeAddress_mod_four s lit hpc
  rw [exec_ldr, loadInto_of_no_memory rc (.inl haligned) (by rwa [wordAddress_of_aligned haligned]),
    wordAddress_of_aligned haligned]

/-! ### Words read back (R40, R45, R46) -/

/-- A write at an aligned address with memory. -/
theorem memWrite_of_aligned {s : State} {a : Word} (v : Word) (hal : a.toNat % 4 = 0)
    (hmem : memValid s.cfg a = true) :
    memWrite s a v = .next (s.setMem (s.mem.writeWord s.cfg.byteOrder a.toNat v)) := by
  rw [memWrite_of_accessible s a v (accessible_of_aligned hal hmem), wordAddress_of_aligned hal]

/-- A read at an aligned address with memory. -/
theorem memRead_of_aligned {s : State} {a : Word} (hal : a.toNat % 4 = 0) (hmem : memValid s.cfg a = true) :
    memRead s a = .next (s.mem.readWord s.cfg.byteOrder a.toNat) := by
  rw [memRead_of_accessible s a (accessible_of_aligned hal hmem), wordAddress_of_aligned hal]

/-- Two different aligned addresses name words without a common byte. -/
theorem disjoint_of_aligned {a b : Word} (ha : a.toNat % 4 = 0) (hb : b.toNat % 4 = 0) (h : b ≠ a) :
    b.toNat + 4 ≤ a.toNat ∨ a.toNat + 4 ≤ b.toNat := by
  have hne : b.toNat ≠ a.toNat := fun e => h (BitVec.eq_of_toNat_eq e)
  omega

/-- A read at an aligned address sees nothing of memory but the word there. -/
theorem memRead_setMem_congr {s : State} {b : Word} {m : Memory} (hal : b.toNat % 4 = 0)
    (h : m.readWord s.cfg.byteOrder b.toNat = s.mem.readWord s.cfg.byteOrder b.toNat) :
    memRead (s.setMem m) b = memRead s b := by
  have hchecked : checkedAddress (s.setMem m) b = checkedAddress s b := rfl
  simp only [memRead, hchecked]
  cases hc : checkedAddress s b with
  | next a =>
    obtain ⟨-, rfl⟩ := accessible_of_checkedAddress hc
    simp only [andThen_next, setMem_mem, setMem_cfg, wordAddress_of_aligned hal, h]
  | fault r => rfl
  | refused r => rfl

theorem aligned_add_three {a : Word} (h : a.toNat % 4 = 0) : a.toNat + 3 < 2 ^ 32 := by
  have := a.isLt
  omega

/-- Settles O47. -/
theorem wordReadBackAfterWrite : Obligations.WordReadBackAfterWrite := by
  intro s a v hwf hal hmem
  have hspace := aligned_add_three hal
  refine ⟨_, memWrite_of_aligned v hal hmem, ?same, fun b hb hne => ?other, fun r => by simp, by simp, by simp,
    by simp [SameModelFields]⟩
  case same =>
    refine Eq.trans (memRead_of_aligned hal hmem) ?_
    exact congrArg _ (readWord_writeWord_same _ _ _ v hwf hspace)
  case other =>
    exact memRead_setMem_congr hb (readWord_writeWord_other _ _ _ _ v hwf hspace (disjoint_of_aligned hal hb hne))

/-- Settles O48. -/
theorem byteOrderPlacesBytes : Obligations.ByteOrderPlacesBytes := by
  intro s a v k hwf hal hmem hk
  have hbyte : (s.mem.writeWord s.cfg.byteOrder a.toNat v).read (a.toNat + k) = byteOfWord s.cfg.byteOrder v k := by
    rw [read_writeWord _ _ _ _ _ hwf (aligned_add_three hal), if_pos (by omega), Nat.add_sub_cancel_left]
  refine ⟨_, memWrite_of_aligned v hal hmem, fun ho => ?little, fun ho => ?big⟩
  case little => exact hbyte.trans (by rw [ho]; rfl)
  case big => exact hbyte.trans (by rw [ho, byteOfWord, Nat.mul_sub])

/-- Settles O49. -/
theorem storeIsSeenByFetch : Obligations.StoreIsSeenByFetch := by
  intro rc ra lit s t hwf h
  obtain ⟨⟨-, hmem⟩, rfl⟩ := storeFrom_eq_next h
  have hal := wordAddress_mod_four (baseAddress s ra lit)
  refine Eq.trans (memRead_of_aligned hal hmem) ?_
  exact congrArg _ (readWord_writeWord_same _ _ _ _ hwf (wordAddress_add_three _))

end Sys2Proof.Machine

/-! PROOFS. Registers and reset (10_state.md R22, R35), jumps and branches (42_other.md R142 to R144), opcode 0x00 and
the other illegal instructions (43_privileged.md R160 to R163). -/

namespace Sys2Proof.Machine

/-! ### Registers and reset (R22, R35, R260) -/

/-- Settles O8. -/
theorem registerThirtyOneIsZero : Obligations.RegisterThirtyOneIsZero :=
  fun s => ⟨reg_31 s, setReg_31 s, fun r v hr => ⟨reg_setReg_same s r v hr, fun q => reg_setReg_other s r q v⟩⟩

/-- Supervisor mode masks the interrupt, under the default IRQ_IN_SUPERVISOR (R231). -/
theorem interruptTaken_of_supervisor {s : State} (hmode : s.mode = .supervisor)
    (hcfg : s.cfg.irqInSupervisor = false) : interruptTaken s = false := by
  rw [interruptTaken, hmode, hcfg]
  rfl

/-- Settles O9. -/
theorem resetStartsInSupervisorAtVector : Obligations.ResetStartsInSupervisorAtVector :=
  fun _ _ => ⟨rfl, rfl, fun hcfg => interruptTaken_of_supervisor rfl hcfg⟩

theorem resetWith_inv {c : Config} (h : c.wellFormed = true) : (State.resetWith c).Inv := by
  have hvectors := h
  simp only [Config.wellFormed, Bool.and_eq_true, decide_eq_true_eq] at hvectors
  obtain ⟨⟨hreset, -⟩, -⟩ := hvectors
  exact ⟨reset_mem_wf c, hreset, h⟩

/-- Settles O10. -/
theorem invariantHoldsAtReset : Obligations.InvariantHoldsAtReset :=
  ⟨resetWith_inv (by decide), fun _ => resetWith_inv⟩

/-! ### Jumps (R43, R142, R236) -/

theorem exec_jmp (ra rc : Reg) (s : State) : exec (.jmp ra rc) s = jumpLinked s (s.reg ra) rc := rfl

/-- The default JMP_MODE: supervisor code stays supervisor exactly when bit 31 of the target is set (R236). -/
theorem jmpMode_eq_supervisor_iff {c : Config} (h : c.jmpMode = .bit31) (m : Mode) (t : Word) :
    jmpMode c m t = .supervisor ↔ m = .supervisor ∧ t.getLsbD 31 = true := by
  simp only [jmpMode, h]
  cases m <;> simp

theorem jmpMode_keep {c : Config} (h : c.jmpMode = .keep) (m : Mode) (t : Word) : jmpMode c m t = m := by
  simp only [jmpMode, h]

/-- Settles O33. -/
theorem jmpLinksAndJumps : Obligations.JmpLinksAndJumps := by
  refine ⟨fun w => decode_of_opcode (.jmp 0 0), fun ra rc s htarget => ?_⟩
  refine ⟨_, jumpLinked_of_aligned_or_mask s (s.reg ra) rc htarget, fun r => reg_setReg s rc (s.pc + 4) r, rfl,
    fun a => by simp, by simp [SameModelFields], fun hcfg => ?bit31, fun hcfg => ?keep⟩
  case bit31 => exact jmpMode_eq_supervisor_iff hcfg s.mode (s.reg ra)
  case keep => exact jmpMode_keep hcfg s.mode (s.reg ra)

/-- Settles O34. -/
theorem misalignedJumpIsRefused : Obligations.MisalignedJumpIsRefused := by
  intro ra rc s htarget hcfg
  rw [exec_jmp, jumpLinked, jumpAddress_refused s _ htarget hcfg, andThen_refused]

/-! ### Branches (R143, R144) -/

theorem zWire_eq_true_iff (a : Word) : zWire a = true ↔ a = 0 := beq_iff_eq

theorem exec_beq (ra : Reg) (lit : Lit) (rc : Reg) (s : State) :
    exec (.beq ra lit rc) s = branchLinked s (zWire (s.reg ra)) (relativeAddress s lit) rc := rfl

theorem exec_bne (ra : Reg) (lit : Lit) (rc : Reg) (s : State) :
    exec (.bne ra lit rc) s = branchLinked s (!zWire (s.reg ra)) (relativeAddress s lit) rc := rfl

theorem exec_beq_writesOnly (ra : Reg) (lit : Lit) (rc : Reg) (s : State) :
    ∃ t, exec (.beq ra lit rc) s = .next t ∧
      WritesOnly s t rc (s.pc + 4) (if s.reg ra = 0 then relativeAddress s lit else s.pc + 4) := by
  simpa only [exec_beq, zWire_eq_true_iff] using branchLinked_writesOnly s (zWire (s.reg ra)) (relativeAddress s lit) rc

theorem exec_bne_writesOnly (ra : Reg) (lit : Lit) (rc : Reg) (s : State) :
    ∃ t, exec (.bne ra lit rc) s = .next t ∧
      WritesOnly s t rc (s.pc + 4) (if s.reg ra = 0 then s.pc + 4 else relativeAddress s lit) := by
  have hbranch := branchLinked_writesOnly s (!zWire (s.reg ra)) (relativeAddress s lit) rc
  simpa only [exec_bne, Bool.not_eq_true', ← Bool.not_eq_true, zWire_eq_true_iff, ite_not] using hbranch

/-- Settles O35. -/
theorem branchesTestAndLink : Obligations.BranchesTestAndLink := by
  refine ⟨fun w => decode_of_opcode (.beq 0 0 0), fun w => decode_of_opcode (.bne 0 0 0), fun ra lit rc s => ?_⟩
  rw [← relativeAddress_eq_ofInt]
  exact ⟨exec_beq_writesOnly ra lit rc s, exec_bne_writesOnly ra lit rc s⟩

/-! ### Illegal instructions (R160 to R163) -/

theorem exec_priv (rest : BitVec 26) (s : State) : exec (.priv rest) s = execPriv rest s := rfl

/-- Settles O36. -/
theorem privTrapsOrIsRefused : Obligations.PrivTrapsOrIsRefused := by
  refine ⟨fun w => decode_of_opcode (.priv 0), fun rest s => ⟨fun hmode => ?user, fun _ hpriv => ?illegal,
    fun hmode hpriv => ?refused⟩⟩
  case user =>
    rw [exec_priv_illegal (.inl hmode)]
    exact raiseIllegal_trapEntered s
  case illegal =>
    rw [exec_priv_illegal (.inr hpriv)]
    exact raiseIllegal_trapEntered s
  case refused => simp only [exec_priv, execPriv, hmode, hpriv]

/-- Settles O37. -/
theorem platformPrivilegedInstructionCompletes : Obligations.PlatformPrivilegedInstructionCompletes := by
  intro rest s hmode hpriv
  refine ⟨applyPriv (Config.privExecPlatform rest s.regs s.pc s.mem) s, ?_, ⟨applyPriv_irq _ s, applyPriv_cfg _ s⟩,
    applyPriv_pc_mod_four _ s, applyPriv_wf _ s⟩
  simp only [exec_priv, execPriv, hmode, hpriv]

/-- An instruction the implementation lacks is an illegal instruction (R163). -/
theorem exec_of_not_wellFormed {i : Instr} {s : State} (h : i.wellFormed s.cfg = false) :
    exec i s = raiseIllegal s := by
  cases i
  case mul => exact if_neg (Bool.not_eq_true _ ▸ h)
  case div => exact if_neg (Bool.not_eq_true _ ▸ h)
  case mulc => exact if_neg (Bool.not_eq_true _ ▸ h)
  case divc => exact if_neg (Bool.not_eq_true _ ▸ h)
  all_goals cases h

/-- Settles O39. -/
theorem absentOptionalOpcodeTraps : Obligations.AbsentOptionalOpcodeTraps := by
  intro ra rb rc lit s i _ habsent
  rw [exec_of_not_wellFormed habsent]
  exact raiseIllegal_trapEntered s

end Sys2Proof.Machine

/-! PROOFS. The step, traps and the return from them (00_scope.md R6, 60_exceptions.md R224 to R237), the input irq
(10_state.md R33, 70_reset_and_hazards.md R272), the end of a run (R270), and POP (44_macros_and_conventions.md
R183). -/

namespace Sys2Proof.Machine

/-! ### The two branches of the step (R6, R231) -/

theorem step_of_interrupt {s : State} (h : interruptTaken s = true) :
    step s = .next (takeTrap .interrupt s.sampled) := by
  rw [step, if_pos h]

/-- Without an interrupt the step is the fetch and what the word does. -/
theorem step_of_no_interrupt {s : State} (h : interruptTaken s = false) :
    step s = andThen (fetch s) fun w => execWord w s.sampled := by
  rw [step, h, fetch_sampled]
  rfl

theorem step_of_fetch {s : State} {w : Word} (h : interruptTaken s = false) (hfetch : fetch s = .next w) :
    step s = execWord w s.sampled := by
  rw [step_of_no_interrupt h, hfetch, andThen_next]

/-- A fetch that completes gives the word memory holds at `pc` (R44). -/
theorem fetch_of_accessible {s : State} (h : Accessible s s.pc) : fetch s = .next (wordAt s (wordAddress s.pc)) :=
  memRead_of_accessible s s.pc h

/-- Settles O38. -/
theorem unassignedOpcodeTraps : Obligations.UnassignedOpcodeTraps := by
  intro s hirq hacc hop
  rw [step_of_fetch hirq (fetch_of_accessible hacc), execWord_of_unassigned hop]
  exact raiseIllegal_trapEntered s.sampled

/-- Settles O40. -/
theorem stepRunsDecodedInstruction : Obligations.StepRunsDecodedInstruction := by
  intro s i hirq hacc hdecode
  rw [step_of_fetch hirq (fetch_of_accessible hacc), execWord_of_decode hdecode]
  rfl

/-- Settles O41. -/
theorem fetchWithoutMemoryFaults : Obligations.FetchWithoutMemoryFaults := by
  intro s hirq hpc hmem
  have hword := wordAddress_of_aligned hpc
  rw [step_of_no_interrupt hirq, fetch, memRead, checkedAddress_of_no_memory (.inl hpc) (by rwa [hword]), hword]
  rfl

theorem interruptTaken_of_high {s : State} (hirq : irqNow s.irq = true)
    (hmode : s.mode = .user ∨ s.cfg.irqInSupervisor = true) : interruptTaken s = true := by
  simp only [interruptTaken, irqHigh, hirq, Bool.and_true, Bool.or_eq_true, beq_iff_eq]
  exact hmode

/-- Settles O42. -/
theorem interruptIsTakenBeforeFetch : Obligations.InterruptIsTakenBeforeFetch :=
  fun s hirq hmode =>
    ⟨_, step_of_interrupt (interruptTaken_of_high hirq hmode), takeTrap_trapEntered .interrupt s.sampled⟩

/-- In supervisor mode only what follows the sample of irq enters the step (R231). -/
theorem step_irqThen_of_supervisor {s : State} (hmode : s.mode = .supervisor) (hcfg : s.cfg.irqInSupervisor = false)
    (b : Bool) (later : IrqInput) :
    step { s with irq := irqThen b later } =
      andThen (fetch { s with irq := later }) fun w => execWord w { s with irq := later } :=
  step_of_no_interrupt (s := { s with irq := irqThen b later }) (interruptTaken_of_supervisor hmode hcfg)

/-- Settles O43. -/
theorem supervisorModeMasksInterrupts : Obligations.SupervisorModeMasksInterrupts := by
  refine fun s b later hmode hcfg => ⟨?_, fun t h => (stepShape_of_step h).irq_eq⟩
  rw [step_irqThen_of_supervisor hmode hcfg, step_irqThen_of_supervisor hmode hcfg]

/-! ### The return from a trap (R226, R237) -/

/-- `JMP(Ra, R31)` from supervisor mode to an aligned target below bit 31 enters user mode and changes nothing else
(R236, R237). -/
theorem exec_jmp_to_user {s : State} {ra : Reg} (hcfg : s.cfg.jmpMode = .bit31) (hal : (s.reg ra).toNat % 4 = 0)
    (hlow : (s.reg ra).getLsbD 31 = false) :
    exec (.jmp ra 31) s = .next ((s.setMode .user).setPc (s.reg ra)) := by
  have hmode : jmpMode s.cfg s.mode (s.reg ra) = .user := by
    cases hm : jmpMode s.cfg s.mode (s.reg ra) with
    | user => rfl
    | supervisor =>
      obtain ⟨-, hbit⟩ := (jmpMode_eq_supervisor_iff hcfg _ _).1 hm
      rw [hlow] at hbit
      cases hbit
  rw [exec_jmp, jumpLinked_of_aligned_or_mask s _ 31 (.inl hal), hmode, setReg_31, wordAddress_of_aligned hal]

/-- Settles O45. -/
theorem jmpXpReturnsPastIllegalWord : Obligations.JmpXpReturnsPastIllegalWord := by
  intro s hmode hpc hcfg hlow
  have hxp := reg_takeTrap_xp .illegalInstruction s
  have hal : (s.pc + 4).toNat % 4 = 0 := add_mod_four _ _ hpc (by decide)
  refine ⟨takeTrap .illegalInstruction s, _, rfl,
    exec_jmp_to_user (by rwa [takeTrap_cfg]) (by rwa [hxp]) (by rwa [hxp]), hxp, rfl, fun r => ?_, fun a => by simp,
    by simp [SameModelFields]⟩
  simp [reg_takeTrap]

/-- SUBC as one state (R123). -/
theorem exec_subc (ra : Reg) (lit : Lit) (rc : Reg) (s : State) :
    exec (.subc ra lit rc) s = .next (s.setReg rc (s.reg ra - sext lit)).advance := rfl

/-- The state of an interrupt's handler after `SUBC(XP, 4, XP)`: XP holds the address of the interrupted instruction. -/
def xpLowered (s : State) : State := (s.setReg xp (s.reg xp - 4)).advance

theorem exec_subc_xp (s : State) : exec (.subc xp 4 xp) s = .next (xpLowered s) := exec_subc xp 4 xp s

theorem reg_xpLowered_takeTrap (tr : Trap) (s : State) (r : Reg) :
    (xpLowered (takeTrap tr s)).reg r = if r = 31 then 0 else if r = xp then s.pc else s.reg r := by
  have hback : s.pc + 4 - 4 = s.pc := BitVec.add_sub_cancel _ _
  rw [xpLowered, reg_takeTrap_xp, hback, reg_advance, reg_setReg, reg_takeTrap]
  split_ifs <;> rfl

/-- Settles O46. -/
theorem interruptReturnResumesInstruction : Obligations.InterruptReturnResumesInstruction := by
  intro s hmode hpc hcfg hlow
  have hregs := reg_xpLowered_takeTrap .interrupt s
  have hxp : (xpLowered (takeTrap .interrupt s)).reg xp = s.pc :=
    (hregs xp).trans ((if_neg (by decide)).trans (if_pos rfl))
  refine ⟨xpLowered (takeTrap .interrupt s), _, exec_subc_xp _,
    exec_jmp_to_user (by simpa [xpLowered] using hcfg) (by rwa [hxp]) (by rwa [hxp]), hxp, rfl, hregs,
    fun a => by simp [xpLowered], by simp [SameModelFields, xpLowered]⟩

/-! ### The input irq (R33, R231, R272) -/

/-- After as many steps as samples were put first, the input is the one they were put before. -/
theorem irqLater_iterate_foldr (samples : List Bool) (later : IrqInput) :
    irqLater^[samples.length] (samples.foldr irqThen later) = later := by
  induction samples with
  | nil => rfl
  | cons b samples ih => exact ih

/-- Samples put first are read in their order. -/
theorem irqNow_iterate_foldr (samples : List Bool) (later : IrqInput) (k : Nat) (h : k < samples.length) :
    irqNow (irqLater^[k] (samples.foldr irqThen later)) = samples[k] := by
  induction samples generalizing k with
  | nil => cases h
  | cons b samples ih =>
    cases k with
    | zero => rfl
    | succ k => exact ih k (Nat.lt_of_succ_lt_succ h)

/-- An input that repeats a pattern repeats it rotated by the steps gone by. -/
theorem irqLater_iterate_repeating (k : Nat) (pattern : List Bool) :
    irqLater^[k] ⟨[], .repeating pattern⟩ = ⟨[], .repeating (pattern.rotate k)⟩ := by
  induction k generalizing pattern with
  | zero => rw [List.rotate_zero]; rfl
  | succ k ih =>
    cases pattern with
    | nil => exact (ih []).trans (by rw [List.rotate_nil, List.rotate_nil])
    | cons b pattern => exact (ih (pattern ++ [b])).trans (by rw [List.rotate_cons_succ])

/-- The sample of a repeated pattern is the pattern's first. -/
theorem some_irqNow_repeating {pattern : List Bool} (h : pattern ≠ []) :
    some (irqNow ⟨[], .repeating pattern⟩) = pattern.head? := by
  cases pattern with
  | nil => exact absurd rfl h
  | cons b pattern => rfl

theorem some_irqNow_iterate_repeating {pattern : List Bool} (h : pattern ≠ []) (k : Nat) :
    some (irqNow (irqLater^[k] ⟨[], .repeating pattern⟩)) = pattern[k % pattern.length]? := by
  have hlength : k % pattern.length < pattern.length := Nat.mod_lt _ (List.length_pos_of_ne_nil h)
  rw [irqLater_iterate_repeating, some_irqNow_repeating (mt List.rotate_eq_nil_iff.1 h), ← List.rotate_mod,
    List.head?_rotate hlength]

/-- Where irq stays high and interrupts are taken in supervisor mode too, a run begins with an interrupt's entry. -/
theorem run_succ_of_irq {s : State} (hirq : ∀ n, irqNow (irqLater^[n] s.irq) = true)
    (hcfg : s.cfg.irqInSupervisor = true) (k : Nat) :
    run (k + 1) s = run k (takeTrap .interrupt s.sampled) := by
  rw [run, step_of_interrupt (interruptTaken_of_high (hirq 0) (.inr hcfg)), andThen_next]

/-- Where irq stays high and interrupts are taken in supervisor mode too, every run of one or more steps ends at an
interrupt's entry, by induction on the number of steps. -/
theorem run_of_irq_stuck (k : Nat) (s : State) (hirq : ∀ n, irqNow (irqLater^[n] s.irq) = true)
    (hcfg : s.cfg.irqInSupervisor = true) :
    ∃ t, run (k + 1) s = .next t ∧ t.pc = s.cfg.vecIrq ∧ t.mode = .supervisor ∧ SameMemory s t ∧
      ∀ r, r ≠ xp → t.reg r = s.reg r := by
  induction k generalizing s with
  | zero =>
    refine ⟨_, run_succ_of_irq hirq hcfg 0, by simp [trapVector], by simp, fun a => by simp, fun r hr => ?_⟩
    exact reg_setReg_other s.sampled xp r _ hr
  | succ k ih =>
    have hlater (n : Nat) : irqNow (irqLater^[n] (takeTrap .interrupt s.sampled).irq) = true := by
      rw [takeTrap_irq]
      exact hirq (n + 1)
    obtain ⟨t, hrun, hpc, hmode, hsame, hregs⟩ := ih _ hlater (by simpa using hcfg)
    refine ⟨t, (run_succ_of_irq hirq hcfg (k + 1)).trans hrun, by simpa using hpc, hmode,
      fun a => by simpa using hsame a, fun r hr => (hregs r hr).trans ?_⟩
    exact reg_setReg_other s.sampled xp r _ hr

/-- Settles O44. -/
theorem irqIsUnderNoLaw : Obligations.IrqIsUnderNoLaw :=
  ⟨fun samples later => ⟨samples.foldr irqThen later, irqLater_iterate_foldr samples later,
      irqNow_iterate_foldr samples later⟩,
    fun pattern h => ⟨⟨[], .repeating pattern⟩, some_irqNow_iterate_repeating h⟩, run_of_irq_stuck⟩

/-! ### The end of a run (R270) -/

theorem endOfRun_iff (s : State) : endOfRun s = true ↔ interruptTaken s = false ∧ fetch s = .next selfBranch := by
  cases hf : fetch s <;> simp [endOfRun, hf]

theorem decode_selfBranch : decode selfBranch = .ok (.beq 31 0xFFFF 31) := decode_encode (.beq 31 0xFFFF 31)

/-- The literal -1 reaches the branch itself. -/
theorem relativeAddress_neg_one (s : State) : relativeAddress s 0xFFFF = s.pc := by
  have hback : (4 : Word) * sext 0xFFFF = -4 := by decide
  rw [relativeAddress, hback, BitVec.add_assoc]
  exact BitVec.add_zero _

/-- The branch to itself changes nothing. -/
theorem execWord_selfBranch (s : State) : execWord selfBranch s = .next s := by
  rw [execWord_of_decode decode_selfBranch, exec_beq, relativeAddress_neg_one]
  rfl

theorem step_of_endOfRun {s : State} (h : endOfRun s = true) : step s = .next s.sampled := by
  obtain ⟨hirq, hfetch⟩ := (endOfRun_iff s).1 h
  rw [step_of_fetch hirq hfetch, execWord_selfBranch]

/-- In supervisor mode the end of a run lasts. -/
theorem endOfRun_sampled {s : State} (h : endOfRun s = true) (hmode : s.mode = .supervisor)
    (hcfg : s.cfg.irqInSupervisor = false) : endOfRun s.sampled = true := by
  obtain ⟨-, hfetch⟩ := (endOfRun_iff s).1 h
  exact (endOfRun_iff s.sampled).2 ⟨interruptTaken_of_supervisor hmode hcfg, (fetch_sampled s).trans hfetch⟩

/-- Settles O60. -/
theorem selfBranchRepeatsForEver : Obligations.SelfBranchRepeatsForEver := by
  refine ⟨fun s _ => step_of_endOfRun, fun k => ?_⟩
  induction k with
  | zero => exact fun s _ _ _ _ => rfl
  | succ k ih =>
    intro s hpc hend hmode hcfg
    rw [run, step_of_endOfRun hend, andThen_next, ih s.sampled hpc (endOfRun_sampled hend hmode hcfg) hmode hcfg]
    rfl

/-! ### The two instructions of POP (R183) -/

theorem expand_pop (at_ : Word) (rc : Reg) : expand at_ (.pop rc) = some [.ld sp 0xFFFC rc, .subc sp 4 sp] := rfl

/-- The displacement -4 is the word below SP. -/
theorem baseAddress_neg_four (s : State) (ra : Reg) : baseAddress s ra 0xFFFC = s.reg ra - 4 := by
  have hlit : sext 0xFFFC = -4 := by decide
  rw [baseAddress, hlit, BitVec.sub_eq_add_neg]

theorem sub_four_mod_four {a : Word} (h : a.toNat % 4 = 0) : (a - 4).toNat % 4 = 0 := by
  rw [BitVec.sub_eq_add_neg]
  exact add_mod_four a (-4) h (by decide)

/-- The LD of POP writes the topmost word into Rc alone. -/
theorem exec_ld_pop (rc : Reg) (s : State) (hal : (s.reg sp).toNat % 4 = 0)
    (hmem : memValid s.cfg (s.reg sp - 4) = true) :
    ∃ t, exec (.ld sp 0xFFFC rc) s = .next t ∧ WritesOnly s t rc (wordAt s (s.reg sp - 4)) (s.pc + 4) := by
  have hal' := sub_four_mod_four hal
  have hload := loadInto_of_accessible s (s.reg sp - 4) rc (accessible_of_aligned hal' hmem)
  rw [wordAddress_of_aligned hal'] at hload
  rwa [exec_ld, baseAddress_neg_four]

/-- Settles O51. -/
theorem popLoadsAndLowers : Obligations.PopLoadsAndLowers := by
  refine ⟨fun at_ => ?words, expand_pop, fun rc s hal hmem => ?effect⟩
  case words =>
    rw [expand_pop]
    decide
  case effect =>
    obtain ⟨t, hnext, hregs, hpc, hmode, hsame, hirq, hcfg⟩ := exec_ld_pop rc s hal hmem
    refine ⟨_, by rw [hnext, andThen_next, exec_subc], fun r => ?reg, ?pc, by simpa using hmode,
      fun a => by simpa using hsame a, by simpa using hirq, by simpa using hcfg⟩
    case reg =>
      have hsp : t.reg sp - 4 = if rc = sp then wordAt s (s.reg sp - 4) - 4 else s.reg sp - 4 := by
        rw [hregs sp, if_neg (show sp ≠ 31 by decide), apply_ite (· - (4 : Word))]
        exact if_congr eq_comm rfl rfl
      have hlit : sext 4 = 4 := by decide
      rw [reg_advance, reg_setReg, hlit, hsp, hregs r]
      split_ifs <;> rfl
    case pc => rw [advance_pc, setReg_pc, hpc, BitVec.add_assoc]; rfl

end Sys2Proof.Machine
